-- ==== Sys2Proof/Word.lean ====
section
/-! DEFINITION. The 9-trit word, the trit and the register number, with the constants of 00_scope.md R5.
A word is held as its unsigned value u(w), a number below 3^9 = 19,683 (R6, R11); its other readings are in
Machine/Readings.lean. -/

namespace Sys2Proof

/-- The number of word values and of memory words, 3^9 (R5, R30). -/
abbrev W : Nat := 19683

/-- The largest unsigned word (R5, R11; 90_conflicts.md C1). -/
abbrev MAXU : Nat := 19682

/-- The largest positive signed word (R5, R12). -/
abbrev HALF : Nat := 9841

/-- A ternary digit: 0, 1 or 2 (R6). -/
abbrev Trit := Fin 3

/-- A 9-trit word, held as its unsigned value (R6, R10). -/
abbrev Word := Fin W

/-- A two-trit field: a register number, 0 for pc and 8 for sp, or a constant 0 to 8 (R15, R47). -/
abbrev RegNum := Fin 9

/-- The word whose unsigned value is `n mod W` (R6). -/
def Word.ofNat (n : Nat) : Word := Fin.ofNat W n

/-- The word congruent to the integer `z` modulo `W` (R6: `x mod W` of a negative `x` is in 0..W-1). -/
def Word.ofInt (z : Int) : Word := Word.ofNat (z % (W : Int)).toNat

/-- The trit with value `n mod 3`. -/
def Trit.ofNat (n : Nat) : Trit := Fin.ofNat 3 n

end Sys2Proof
end

