-- ==== Sys2Proof/Config.lean ====
section
/-! DEFINITION. What an implementation fixes (the parameters of 00_scope.md R5 with the defaults the spec gives) and the
free values: constants without a body, of which nothing can be proved. -/

namespace Sys2Proof

/-- `OP_CARRY`, the op value of addc and subb: 10 base 3 (R5, R49, D4). UNVERIFIED (log 1). -/
def Config.opCarry : Nat := 3

/-- `OP_SHIFT`, the op value of sl, sru and srs: 11 base 3 (R5, R49, D4). UNVERIFIED (log 1). -/
def Config.opShift : Nat := 4

/-- `OP_BRANCH`, the op value of the conditional branches: 12 base 3 (R5, R49, D5). UNVERIFIED (log 1). -/
def Config.opBranch : Nat := 5

/-- What the configuration item `BRANCH_FORMAT` says (R5, R53, R110): the layout of a conditional branch beside its op value, and the
rule that makes pc of a taken branch. -/
structure BranchFormat where
  /-- The trit that holds the a field. -/
  autoTrit : Nat
  /-- The lowest of the three trits m r r of the operand. -/
  operandLow : Nat
  /-- The lowest of the three trits of the condition number. -/
  conditionLow : Nat
  /-- What a taken branch puts into pc, from the operand's value and pc after the operand phase. -/
  target : Word → Word → Word

/-- Format B (R53, R110): `12 a src k`, the operand's value being the absolute target. -/
def formatB : BranchFormat where
  autoTrit := 6
  operandLow := 3
  conditionLow := 0
  target := fun t _ => t

/-- `BRANCH_FORMAT`, Format B (R5, R53, R110, D5). UNVERIFIED (log 1). -/
def Config.branchFormat : BranchFormat := formatB

/-- `RESET_PC`, OPEN in the spec (R5, R160, D11); DESIGN CHOICE: 0, the value its test programs use (log 2). Unsafe. -/
def Config.resetPc : Word := 0

/-- What register `i` (1 to 8) holds at launch, unspecified (R25, R161): a free value (log 3). -/
opaque Config.launchReg : RegNum → Word

/-- What s holds at launch, unspecified (R25): a free value (log 3). -/
opaque Config.launchS : Trit

/-- What v holds at launch, unspecified and possibly 2 (R20, R25, U1): a free value (log 3). -/
opaque Config.launchV : Trit

/-- What c holds at launch, unspecified (R25): a free value (log 3). -/
opaque Config.launchC : Trit

end Sys2Proof
end

