-- ==== Sys2Proof/Machine/Readings.lean ====
section
/-! DEFINITION. The readings of a word (00_scope.md R6, 10_state.md R10 to R14) and the address arithmetic inc and dec
(R7, D2). -/

namespace Sys2Proof

/-- `u(w)`, the unsigned value, 0..19682 (R6, R11). -/
def u (w : Word) : Nat := w.val

/-- `sg(w)`, the 3's-complement signed value, -9841..+9841 (R6, R12). -/
def sg (w : Word) : Int := if u w ≤ HALF then (u w : Int) else (u w : Int) - (W : Int)

/-- `sign3(w)`, the sign trit: 0 zero, 1 positive, 2 negative (R6). -/
def sign3 (w : Word) : Trit := if u w = 0 then 0 else if u w ≤ HALF then 1 else 2

/-- `w.t[i]`, trit i of the word, trit 0 least significant (R6). -/
def trit (w : Word) (i : Nat) : Trit := Trit.ofNat (u w / 3 ^ i)

/-- `w.t[hi:lo]`, the number made of trits hi down to lo (R6). -/
def slice (w : Word) (hi lo : Nat) : Nat := u w / 3 ^ lo % 3 ^ (hi - lo + 1)

/-- `zext_9` of a two-trit field (R6): the word with that small unsigned value. -/
def zext (k : RegNum) : Word := Word.ofNat k.val

/-- `inc(v)`, (u(v) + 1) mod W (R7, D2). UNVERIFIED at the wrap (log 7). -/
def inc (w : Word) : Word := Word.ofNat (u w + 1)

/-- `dec(v)`, (u(v) - 1) mod W (R7, D2). UNVERIFIED at the wrap (log 7). -/
def dec (w : Word) : Word := Word.ofInt ((u w : Int) - 1)

/-- Negation, (W - u(w)) mod W (R8, "3's complement"). -/
def negate (w : Word) : Word := Word.ofNat (W - u w)

/-- The trit-wise complement, ZZZ_27 - w: each trit t becomes 2 - t (R8). -/
def complement (w : Word) : Word := Word.ofNat (MAXU - u w)

/-- Digit i (-1, 0 or +1) of the balanced-ternary reading: trit i of (u(w) + 9841) mod W, renamed t - 1 (R13). -/
def balancedDigit (w : Word) (i : Nat) : Int := ((trit (Word.ofNat (u w + HALF)) i).val : Int) - 1

/-- The value of the balanced numeral, the sum of digit i times 3^i (R13). -/
def balancedValue (w : Word) : Int :=
  ((List.range 9).map fun i => balancedDigit w i * 3 ^ i).sum

/-- The word is a ternary coded binary number: every trit is 0 or 1 (R14). -/
def isTcb (w : Word) : Bool := (List.range 9).all fun i => decide (trit w i ≠ 2)

/-- The binary value of a ternary coded binary word, the sum of trit i times 2^i (R14). -/
def tcbValue (w : Word) : Nat := ((List.range 9).map fun i => (trit w i).val * 2 ^ i).sum

/-- The base-27 digits (R6). Only 0, D, E and Z are the spec's source's; the rest of the alphabet is general knowledge and no rule
depends on it. PRESUMED (log 11). -/
def base27Alphabet : List Char :=
  ['0', '1', '2', '3', '4', '5', '6', '7', '8', '9', 'A', 'B', 'C', 'D', 'E', 'F', 'G', 'H', 'K', 'M', 'N', 'P', 'R',
    'T', 'V', 'X', 'Z']

/-- The word written in base 27, one digit per three trits, most significant first (R6). -/
def base27 (w : Word) : List Char :=
  [slice w 8 6, slice w 5 3, slice w 2 0].map fun d => base27Alphabet.getD d '?'

end Sys2Proof
end

