-- ==== Sys2Proof/Syntax.lean ====
section
/-! DEFINITION. The instruction set as syntax: one constructor of `Instr` per row of spec/opcode_table.json
(30_encoding.md R49 to R55), operands as decoded fields. -/

namespace Sys2Proof

/-- The a field (R48): 0 plain, 1 autoincrement (suffix `+`), 2 autodecrement (suffix `-`). It acts on every memory-mode
operand of the instruction and on nothing else. -/
inductive Auto where
  | plain
  | inc
  | dec
deriving DecidableEq, Repr

/-- An operand field, mode trit m and two-trit r (R47, R71): m = 0 constant, m = 1 register, m = 2 memory through a
register. -/
inductive Operand where
  | const (k : RegNum)
  | reg (r : RegNum)
  | mem (r : RegNum)
deriving DecidableEq, Repr

/-- The 24 instructions (R3). Format G: move, add, sub. Format C: addc, subb, whose source is always a register (R51).
Format S: sl, sru, srs, with the count n = 1..9 (R52, R106). Format B: the 16 conditional branches, with one source
operand, the target (R53, R55). -/
inductive Instr where
  | move (a : Auto) (src dst : Operand)
  | add (a : Auto) (src dst : Operand)
  | sub (a : Auto) (src dst : Operand)
  | addc (a : Auto) (rs : RegNum) (dst : Operand)
  | subb (a : Auto) (rs : RegNum) (dst : Operand)
  | sl (n : Nat) (dst : Operand)
  | sru (n : Nat) (dst : Operand)
  | srs (n : Nat) (dst : Operand)
  | beq (a : Auto) (src : Operand)
  | bne (a : Auto) (src : Operand)
  | blts (a : Auto) (src : Operand)
  | bles (a : Auto) (src : Operand)
  | bges (a : Auto) (src : Operand)
  | bgts (a : Auto) (src : Operand)
  | bltu (a : Auto) (src : Operand)
  | bleu (a : Auto) (src : Operand)
  | bgeu (a : Auto) (src : Operand)
  | bgtu (a : Auto) (src : Operand)
  | bpos (a : Auto) (src : Operand)
  | bnpos (a : Auto) (src : Operand)
  | bneg (a : Auto) (src : Operand)
  | bnneg (a : Auto) (src : Operand)
  | bvr (a : Auto) (src : Operand)
  | bvs (a : Auto) (src : Operand)
deriving DecidableEq, Repr

/-- The seven classes of reserved instruction words, one per row of the table of 30_encoding.md R56. -/
inductive Reserved where
  /-- Row 1: op = 20, 21, 22 has no instruction. -/
  | opUnassigned
  /-- Row 2: Format G with a = 1 or 2 and no memory-mode operand. -/
  | autoWithoutMemoryG
  /-- Row 3: carry group with trit 05 = 0. -/
  | carryUnassigned
  /-- Row 4: carry group with a = 1 or 2 and no memory-mode destination. -/
  | autoWithoutMemoryC
  /-- Row 5: shift group with trit 06 = 1 or 2. -/
  | shiftAuto
  /-- Row 6: branch group with condition number 16 to 26. -/
  | conditionUnassigned
  /-- Row 7: branch group with a = 1 or 2 and no memory-mode operand. -/
  | autoWithoutMemoryB
deriving DecidableEq, Repr

/-- Whether the operand is in memory mode, m = 2. -/
def Operand.isMem : Operand → Bool
  | .const _ => false
  | .reg _ => false
  | .mem _ => true

end Sys2Proof
end

