-- ==== Sys2Proof/WellFormed.lean ====
section
/-! DEFINITION. Which instructions have an encoding: a set only where there is a memory-mode operand (30_encoding.md R50,
R51, R53, R56 rows 2, 4, 7) and a shift count of 1 to 9 (R54, R106). -/

namespace Sys2Proof

/-- The a field may be set only if one of the operands it acts on is in memory mode (R48, R56). -/
def autoOk (a : Auto) (hasMem : Bool) : Bool := a == .plain || hasMem

/-- A shift count (R54, R106): "n is 1..9; a count of 0 cannot be encoded". -/
def countOk (n : Nat) : Bool := decide (1 ≤ n) && decide (n ≤ 9)

/-- The instruction is the reading of some instruction word (R57). -/
def Instr.wellFormed : Instr → Bool
  | .move a src dst => autoOk a (src.isMem || dst.isMem)
  | .add a src dst => autoOk a (src.isMem || dst.isMem)
  | .sub a src dst => autoOk a (src.isMem || dst.isMem)
  | .addc a _ dst => autoOk a dst.isMem
  | .subb a _ dst => autoOk a dst.isMem
  | .sl n _ => countOk n
  | .sru n _ => countOk n
  | .srs n _ => countOk n
  | .beq a src => autoOk a src.isMem
  | .bne a src => autoOk a src.isMem
  | .blts a src => autoOk a src.isMem
  | .bles a src => autoOk a src.isMem
  | .bges a src => autoOk a src.isMem
  | .bgts a src => autoOk a src.isMem
  | .bltu a src => autoOk a src.isMem
  | .bleu a src => autoOk a src.isMem
  | .bgeu a src => autoOk a src.isMem
  | .bgtu a src => autoOk a src.isMem
  | .bpos a src => autoOk a src.isMem
  | .bnpos a src => autoOk a src.isMem
  | .bneg a src => autoOk a src.isMem
  | .bnneg a src => autoOk a src.isMem
  | .bvr a src => autoOk a src.isMem
  | .bvs a src => autoOk a src.isMem

end Sys2Proof
end

