-- ==== Sys2Proof/Decode.lean ====
section
/-! DEFINITION. The decoder of 30_encoding.md R57, total on the 19,683 words and naming the row of R56 for each reserved one;
the encoder, from the formats of R50 to R55; the length of R58. -/

namespace Sys2Proof

/-- The a trit (R48). -/
def autoOfTrit (t : Trit) : Auto := if t = 0 then .plain else if t = 1 then .inc else .dec

/-- An operand from its mode trit and its two-trit r (R47, R71). -/
def operandOf (m : Trit) (r : RegNum) : Operand :=
  if m = 0 then .const r else if m = 1 then .reg r else .mem r

/-- The a field, trit 06 (R46). -/
def aField (ir : Word) : Auto := autoOfTrit (trit ir 6)

/-- The two-trit field whose low trit is `lo`, read as 0..8 (R47, R54). -/
def twoTrits (ir : Word) (lo : Nat) : RegNum := Fin.ofNat 9 (slice ir (lo + 1) lo)

/-- The src operand, trits 05..03 (R46, R47). -/
def srcField (ir : Word) : Operand := operandOf (trit ir 5) (twoTrits ir 3)

/-- The dst operand, trits 02..00 (R46, R47). -/
def dstField (ir : Word) : Operand := operandOf (trit ir 2) (twoTrits ir 0)

/-- The shift count of the two-trit count field: 00 means 9 (R54, R106). -/
def countOf (nn : RegNum) : Nat := if nn = 0 then 9 else nn.val

/-- Format G, `0x a src dst` (R50, R56 row 2). -/
def decodeG (mk : Auto → Operand → Operand → Instr) (ir : Word) : Except Reserved Instr :=
  if autoOk (aField ir) ((srcField ir).isMem || (dstField ir).isMem) then .ok (mk (aField ir) (srcField ir) (dstField ir))
  else .error .autoWithoutMemoryG

/-- Format C, `10 a f rs dst`, f = 1 addc, f = 2 subb (R51, R56 rows 3 and 4). -/
def decodeC (ir : Word) : Except Reserved Instr :=
  if trit ir 5 = 0 then .error .carryUnassigned
  else if autoOk (aField ir) (dstField ir).isMem then
    if trit ir 5 = 1 then .ok (.addc (aField ir) (twoTrits ir 3) (dstField ir))
    else .ok (.subb (aField ir) (twoTrits ir 3) (dstField ir))
  else .error .autoWithoutMemoryC

/-- Format S, `11 0 f n dst`, f = 0 sl, 1 sru, 2 srs (R52, R56 row 5). -/
def decodeS (ir : Word) : Except Reserved Instr :=
  if trit ir 6 ≠ 0 then .error .shiftAuto
  else if trit ir 5 = 0 then .ok (.sl (countOf (twoTrits ir 3)) (dstField ir))
  else if trit ir 5 = 1 then .ok (.sru (countOf (twoTrits ir 3)) (dstField ir))
  else .ok (.srs (countOf (twoTrits ir 3)) (dstField ir))

/-- The branch with condition number k, in the order of R55; none for k = 16..26. -/
def branchOf : Nat → Option (Auto → Operand → Instr)
  | 0 => some .beq
  | 1 => some .bne
  | 2 => some .blts
  | 3 => some .bles
  | 4 => some .bges
  | 5 => some .bgts
  | 6 => some .bltu
  | 7 => some .bleu
  | 8 => some .bgeu
  | 9 => some .bgtu
  | 10 => some .bpos
  | 11 => some .bnpos
  | 12 => some .bneg
  | 13 => some .bnneg
  | 14 => some .bvr
  | 15 => some .bvs
  | _ => none

/-- A branch's a field, where `BRANCH_FORMAT` has it (R53). -/
def branchAuto (ir : Word) : Auto := autoOfTrit (trit ir Config.branchFormat.autoTrit)

/-- A branch's operand, where `BRANCH_FORMAT` has it (R53). -/
def branchOperand (ir : Word) : Operand :=
  operandOf (trit ir (Config.branchFormat.operandLow + 2)) (twoTrits ir Config.branchFormat.operandLow)

/-- A branch's condition number, where `BRANCH_FORMAT` has it (R53). -/
def branchCondition (ir : Word) : Nat :=
  slice ir (Config.branchFormat.conditionLow + 2) Config.branchFormat.conditionLow

/-- The conditional branches, `12 a src k` in Format B (R53, R55, R56 rows 6 and 7), read as the configuration item `BRANCH_FORMAT` lays
them out. UNVERIFIED (log 1). -/
def decodeB (ir : Word) : Except Reserved Instr :=
  match branchOf (branchCondition ir) with
  | none => .error .conditionUnassigned
  | some mk =>
    if autoOk (branchAuto ir) (branchOperand ir).isMem then .ok (mk (branchAuto ir) (branchOperand ir))
    else .error .autoWithoutMemoryB

/-- R57: every word selects exactly one instruction or is reserved. The op values of the carry, shift and branch groups and
the branch format are the configuration's (R5, R49, R53). -/
def decode (ir : Word) : Except Reserved Instr :=
  if slice ir 8 7 = 0 then decodeG .move ir
  else if slice ir 8 7 = 1 then decodeG .add ir
  else if slice ir 8 7 = 2 then decodeG .sub ir
  else if slice ir 8 7 = Config.opCarry then decodeC ir
  else if slice ir 8 7 = Config.opShift then decodeS ir
  else if slice ir 8 7 = Config.opBranch then decodeB ir
  else .error .opUnassigned

/-- The a trit of an `Auto` (R48). -/
def Auto.code : Auto → Nat
  | .plain => 0
  | .inc => 1
  | .dec => 2

/-- The three trits m r r of an operand, as a number 0..26 (R47). -/
def Operand.code : Operand → Nat
  | .const k => k.val
  | .reg r => 9 + r.val
  | .mem r => 18 + r.val

/-- The two-trit count field: 9 is written 00 (R54, R106). -/
def countCode (n : Nat) : Nat := if n = 9 then 0 else n

/-- A word from its op, a, src and dst fields (R46). -/
def pack (op a src dst : Nat) : Word := Word.ofNat (op * 3 ^ 7 + a * 3 ^ 6 + src * 3 ^ 3 + dst)

/-- A branch's word from its a, operand and condition number, laid out as `BRANCH_FORMAT` says (R53). -/
def packBranch (a src k : Nat) : Word :=
  Word.ofNat (Config.opBranch * 3 ^ 7 + a * 3 ^ Config.branchFormat.autoTrit + src * 3 ^ Config.branchFormat.operandLow +
    k * 3 ^ Config.branchFormat.conditionLow)

/-- The first word of an instruction, from the formats of R50 to R55. -/
def encode : Instr → Word
  | .move a src dst => pack 0 a.code src.code dst.code
  | .add a src dst => pack 1 a.code src.code dst.code
  | .sub a src dst => pack 2 a.code src.code dst.code
  | .addc a rs dst => pack Config.opCarry a.code (9 + rs.val) dst.code
  | .subb a rs dst => pack Config.opCarry a.code (18 + rs.val) dst.code
  | .sl n dst => pack Config.opShift 0 (countCode n) dst.code
  | .sru n dst => pack Config.opShift 0 (9 + countCode n) dst.code
  | .srs n dst => pack Config.opShift 0 (18 + countCode n) dst.code
  | .beq a src => packBranch a.code src.code 0
  | .bne a src => packBranch a.code src.code 1
  | .blts a src => packBranch a.code src.code 2
  | .bles a src => packBranch a.code src.code 3
  | .bges a src => packBranch a.code src.code 4
  | .bgts a src => packBranch a.code src.code 5
  | .bltu a src => packBranch a.code src.code 6
  | .bleu a src => packBranch a.code src.code 7
  | .bgeu a src => packBranch a.code src.code 8
  | .bgtu a src => packBranch a.code src.code 9
  | .bpos a src => packBranch a.code src.code 10
  | .bnpos a src => packBranch a.code src.code 11
  | .bneg a src => packBranch a.code src.code 12
  | .bnneg a src => packBranch a.code src.code 13
  | .bvr a src => packBranch a.code src.code 14
  | .bvs a src => packBranch a.code src.code 15

/-- Whether the operand, with this a, is `*pc` autoincrement and so steps pc over one word (R58, R79). -/
def immediateWords (a : Auto) (o : Operand) : Nat := if a = .inc ∧ o = .mem 0 then 1 else 0

/-- The length in words (R58): the instruction word, one more for an immediate source (Formats G and B), one more for a
destination `*pc` with a = 1. -/
def Instr.length : Instr → Nat
  | .move a src dst => 1 + immediateWords a src + immediateWords a dst
  | .add a src dst => 1 + immediateWords a src + immediateWords a dst
  | .sub a src dst => 1 + immediateWords a src + immediateWords a dst
  | .addc a _ dst => 1 + immediateWords a dst
  | .subb a _ dst => 1 + immediateWords a dst
  | .sl _ _ => 1
  | .sru _ _ => 1
  | .srs _ _ => 1
  | .beq a src => 1 + immediateWords a src
  | .bne a src => 1 + immediateWords a src
  | .blts a src => 1 + immediateWords a src
  | .bles a src => 1 + immediateWords a src
  | .bges a src => 1 + immediateWords a src
  | .bgts a src => 1 + immediateWords a src
  | .bltu a src => 1 + immediateWords a src
  | .bleu a src => 1 + immediateWords a src
  | .bgeu a src => 1 + immediateWords a src
  | .bgtu a src => 1 + immediateWords a src
  | .bpos a src => 1 + immediateWords a src
  | .bnpos a src => 1 + immediateWords a src
  | .bneg a src => 1 + immediateWords a src
  | .bnneg a src => 1 + immediateWords a src
  | .bvr a src => 1 + immediateWords a src
  | .bvs a src => 1 + immediateWords a src

/-- The instruction the decoder reads from the word numbered `w`, its unsigned value (log 8): the table's unit is the trit, so
the number of the word is the spec's own decimal value of it (R68). None for a reserved word, and for a number that no 9-trit word
has. -/
def decodeTableWord (_nbits w : Nat) : Option Instr :=
  if w < W then (decode (Word.ofNat w)).toOption else none

end Sys2Proof
end

