-- ==== Sys2Proof/Machine/State.lean ====
section
/-! DEFINITION. The architectural state (10_state.md, opening table), the reasons a step can stop (60_exceptions.md R143), and the
state after reset (R25, R160). -/

namespace Sys2Proof.Machine

/-- The condition codes s, v, c, one trit each: the only field of the processor status word that is state (R18 to R21, D24). -/
structure CC where
  /-- The sign trit (R19). -/
  s : Trit
  /-- The overflow trit, used as a bit (R20). -/
  v : Trit
  /-- The carry trit (R21). -/
  c : Trit
deriving DecidableEq, Repr

/-- One word of memory at an address. The machine has no bytes (R33), so a cell is not a `Host.Cell` (log 5). -/
abbrev WordCell := Nat × Word

/-- Memory as the list of the words that hold a value, addresses strictly rising (R30; log 4). -/
abbrev Memory := List WordCell

/-- The whole state: nine registers, r0 being pc and r8 sp (R15 to R17), the condition codes and memory. -/
structure State where
  /-- r0 = pc, r1 .. r7, r8 = sp. -/
  regs : Vector Word 9
  /-- s, v, c. -/
  cc : CC
  /-- The words of memory that hold a value. -/
  mem : Memory
  /-- The MODEL's own field, an argument of the model in the spec: the addresses `MEM_MAP` leaves out (R36, R142; log 6). Fixed
  during a run. -/
  unpopulated : List Word
deriving DecidableEq, Repr

/-- Why the machine stops. A fault is a model-level stop, never a transfer of control (R141 to R143). -/
inductive Fault where
  /-- Raised by `step` when the fetched word `ir`, at address `addr`, is one of the reserved patterns of R56 (R141). Safe. -/
  | reservedInstruction (ir addr : Word)
  /-- Raised by any access to an address outside `MEM_MAP` (R142). Safe. -/
  | busError (addr : Word)
  /-- Raised by a read, fetch included, of a memory word that nothing has written (R25, R161, D22: a fault, or a free draw, never
  0). Safe: the hardware goes on with some value (log 4). -/
  | unwrittenMemory (addr : Word)
deriving DecidableEq, Repr

/-- Why the model has no meaning for an instruction. -/
inductive Refusal where
  /-- Raised by `exec` for an instruction of the opcode table that has no meaning yet; no instruction is left in this state. Safe. -/
  | notModelled (mnemonic : String)
deriving DecidableEq, Repr

/-- The state after reset (R25, R160): pc at `RESET_PC`, every other register and cc a free value, no memory word written, every
address populated. A host's launch state is `State.launch`, Machine/Launch.lean. -/
def State.reset : State where
  regs := #v[Config.resetPc, Config.launchReg 1, Config.launchReg 2, Config.launchReg 3, Config.launchReg 4,
    Config.launchReg 5, Config.launchReg 6, Config.launchReg 7, Config.launchReg 8]
  cc := ⟨Config.launchS, Config.launchV, Config.launchC⟩
  mem := []
  unpopulated := []

end Sys2Proof.Machine
end

