-- ==== Sys2Proof/Machine/Flags.lean ====
section
/-! DEFINITION. What each instruction computes, result and condition codes (41_move_add_sub.md R85 to R91, 42_carry.md R95 to R97,
43_shift.md R100 to R106), and the sixteen branch conditions (44_branch.md R112 to R127). -/

namespace Sys2Proof.Machine

/-- A result with the condition codes that go with it (R77, phase 3). -/
structure Computed where
  result : Word
  cc : CC
deriving DecidableEq, Repr

/-- v of add, sub, addc and subb: judged on the exact signed result (R90, D17). UNVERIFIED (log 7). -/
def overflow (ts : Int) : Trit := if -(HALF : Int) ≤ ts ∧ ts ≤ (HALF : Int) then 0 else 1

/-- The adder: result and carry out of the unsigned sum `t`, v of the exact signed result `ts`, s of the stored result (R86, R87,
R89, R95, R96). -/
def adder (t : Nat) (ts : Int) : Computed where
  result := Word.ofNat t
  cc := ⟨sign3 (Word.ofNat t), overflow ts, Trit.ofNat (t / W)⟩

/-- move (R85): the value itself, v and c reset to 0. -/
def computeMove (src : Word) : Computed := ⟨src, ⟨sign3 src, 0, 0⟩⟩

/-- add (R86). -/
def computeAdd (d src : Word) : Computed := adder (u d + u src) (sg d + sg src)

/-- sub (R87): dst + (MAXU - src) + 1. -/
def computeSub (d src : Word) : Computed := adder (u d + (MAXU - u src) + 1) (sg d - sg src)

/-- addc (R95), the carry on entry added literally, 2 as well (R97, D16). UNVERIFIED for 2 (log 7). -/
def computeAddc (d src : Word) (cin : Trit) : Computed :=
  adder (u d + u src + cin.val) (sg d + sg src + (cin.val : Int))

/-- subb (R96): dst + (MAXU - src) + c, literally for c = 2 as well (R97, D16). UNVERIFIED for 2 (log 7). -/
def computeSubb (d src : Word) (cin : Trit) : Computed :=
  adder (u d + (MAXU - u src) + cin.val) (sg d - sg src - 1 + (cin.val : Int))

/-- sl (R100): v = 1 exactly when the 9-trit result is not the exact signed product (90_conflicts.md C9). -/
def computeSl (n : Nat) (d : Word) : Computed where
  result := Word.ofNat (u d * 3 ^ n)
  cc := ⟨sign3 (Word.ofNat (u d * 3 ^ n)), if sg (Word.ofNat (u d * 3 ^ n)) = sg d * 3 ^ n then 0 else 1, trit d (9 - n)⟩

/-- v of the right shifts: whether any nonzero trit was shifted out (R102, R103). -/
def lostTrits (n : Nat) (d : Word) : Trit := if u d % 3 ^ n = 0 then 0 else 1

/-- sru (R102): zeros enter at the left. -/
def computeSru (n : Nat) (d : Word) : Computed where
  result := Word.ofNat (u d / 3 ^ n)
  cc := ⟨sign3 (Word.ofNat (u d / 3 ^ n)), lostTrits n d, trit d (n - 1)⟩

/-- The result of srs (R103): twos enter at the left for a negative word, zeros for any other. -/
def srsResult (n : Nat) (d : Word) : Word :=
  Word.ofNat (u d / 3 ^ n + if u d ≤ HALF then 0 else W - 3 ^ (9 - n))

/-- srs (R103). -/
def computeSrs (n : Nat) (d : Word) : Computed where
  result := srsResult n d
  cc := ⟨sign3 (srsResult n d), lostTrits n d, trit d (n - 1)⟩

/-- beq (R112): s = 0. -/
def condBeq (cc : CC) : Bool := decide (cc.s = 0)

/-- bne (R113): s != 0. -/
def condBne (cc : CC) : Bool := decide (cc.s ≠ 0)

/-- blts (R114): ((s = 2) & (v = 0)) | ((s = 1) & (v = 1)). -/
def condBlts (cc : CC) : Bool := decide ((cc.s = 2 ∧ cc.v = 0) ∨ (cc.s = 1 ∧ cc.v = 1))

/-- bles (R115): ((s = 2) & (v = 0)) | ((s = 1) & (v = 1)) | (s = 0). -/
def condBles (cc : CC) : Bool := decide ((cc.s = 2 ∧ cc.v = 0) ∨ (cc.s = 1 ∧ cc.v = 1) ∨ cc.s = 0)

/-- bges (R116): ((s = 1) & (v = 0)) | ((s = 2) & (v = 1)) | (s = 0). -/
def condBges (cc : CC) : Bool := decide ((cc.s = 1 ∧ cc.v = 0) ∨ (cc.s = 2 ∧ cc.v = 1) ∨ cc.s = 0)

/-- bgts (R117): ((s = 1) & (v = 0)) | ((s = 2) & (v = 1)). -/
def condBgts (cc : CC) : Bool := decide ((cc.s = 1 ∧ cc.v = 0) ∨ (cc.s = 2 ∧ cc.v = 1))

/-- bltu (R118): c = 0. -/
def condBltu (cc : CC) : Bool := decide (cc.c = 0)

/-- bleu (R119): (c = 0) | (s = 0). -/
def condBleu (cc : CC) : Bool := decide (cc.c = 0 ∨ cc.s = 0)

/-- bgeu (R120): c != 0. -/
def condBgeu (cc : CC) : Bool := decide (cc.c ≠ 0)

/-- bgtu (R121): (c != 0) & (s != 0). -/
def condBgtu (cc : CC) : Bool := decide (cc.c ≠ 0 ∧ cc.s ≠ 0)

/-- bpos (R122): s = 1. -/
def condBpos (cc : CC) : Bool := decide (cc.s = 1)

/-- bnpos (R123): s != 1. -/
def condBnpos (cc : CC) : Bool := decide (cc.s ≠ 1)

/-- bneg (R124): s = 2. -/
def condBneg (cc : CC) : Bool := decide (cc.s = 2)

/-- bnneg (R125): s != 2 (90_conflicts.md C7). -/
def condBnneg (cc : CC) : Bool := decide (cc.s ≠ 2)

/-- bvr (R126): v = 0. -/
def condBvr (cc : CC) : Bool := decide (cc.v = 0)

/-- bvs (R127): v != 0, the complement of bvr (90_conflicts.md C8). -/
def condBvs (cc : CC) : Bool := decide (cc.v ≠ 0)

end Sys2Proof.Machine
end

