-- ==== Sys2Proof/Machine/Ops.lean ====
section
/-! DEFINITION. The named operations over registers and memory (00_scope.md R7), and the instruction fetch (40_operands.md R70).
No exception entry stands here: the machine has none (60_exceptions.md R143, R148); the two model-level faults of R141 and R142
stop it. -/

namespace Sys2Proof.Machine

/-- `x[i]` (R7, R15). -/
def State.reg (s : State) (i : RegNum) : Word := s.regs[i]

/-- `x[i] <- v` (R7, R15). -/
def State.setReg (s : State) (i : RegNum) (v : Word) : State := { s with regs := s.regs.set i v }

/-- pc, which is r0 (R16). -/
def State.pc (s : State) : Word := s.reg 0

/-- sp, which is r8 (R17). -/
def State.sp (s : State) : Word := s.reg 8

/-- `cc <- (a, b, c)` (R7). -/
def State.setCC (s : State) (cc : CC) : State := { s with cc := cc }

/-- The word stored at an address, if it holds one (R30). -/
def Memory.lookup : Memory → Nat → Option Word
  | [], _ => none
  | (b, v) :: m, a => if a = b then some v else Memory.lookup m a

/-- Memory with the word `v` at address `a`, the addresses kept rising. -/
def Memory.store : Memory → Nat → Word → Memory
  | [], a, v => [(a, v)]
  | (b, w) :: m, a, v =>
    if a < b then (a, v) :: (b, w) :: m
    else if a = b then (a, v) :: m
    else (b, w) :: Memory.store m a v

/-- The canonical form: addresses strictly rising and below `W` (R30). Every listed word is one that something wrote; an unlisted
address has no value (log 4). -/
def Memory.wf : Memory → Bool
  | [] => true
  | [(a, _)] => decide (a < W)
  | (a, _) :: (b, w) :: m => decide (a < b) && Memory.wf ((b, w) :: m)

/-- Whether `MEM_MAP` gives the address storage (R36). -/
def State.populated (s : State) (a : Word) : Bool := !s.unpopulated.contains a

/-- The word memory holds at an address, none if nothing has written it. -/
def State.word (s : State) (a : Word) : Option Word := s.mem.lookup (u a)

/-- `MemRead(addr, 1)` (R7, R35), with the faults of R142 and of D22. -/
def memRead (s : State) (a : Word) : Except Fault Word :=
  if s.populated a then
    match s.word a with
    | some v => .ok v
    | none => .error (.unwrittenMemory a)
  else .error (.busError a)

/-- `MemWrite(addr, 1, v)` (R7, R35), with the fault of R142. -/
def memWrite (s : State) (a v : Word) : Except Fault State :=
  if s.populated a then .ok { s with mem := s.mem.store (u a) v } else .error (.busError a)

/-- The fetch of R70: the word at pc, and the state with pc incremented. -/
def fetch (s : State) : Except Fault (Word × State) :=
  match memRead s s.pc with
  | .error f => .error f
  | .ok ir => .ok (ir, s.setReg 0 (inc s.pc))

/-- A meaning's result as an outcome of the machine: it completes, or a fault of R143 stops it. -/
def outcomeOf : Except Fault State → Host.Outcome State Fault Refusal
  | .ok s => .next s
  | .error f => .fault f

end Sys2Proof.Machine
end

