-- ==== Sys2Proof/Machine/Operands.lean ====
section
/-! DEFINITION. Operand access, 40_operands.md R71 to R77: SrcVal, DstPrepare, DstCommit. -/

namespace Sys2Proof.Machine

/-- The pre-decrement of autodecrement mode (R71): "decremented before it is used". -/
def preDec (a : Auto) (r : RegNum) (s : State) : State :=
  match a with
  | .plain => s
  | .inc => s
  | .dec => s.setReg r (dec (s.reg r))

/-- The post-increment of autoincrement mode (R71): "After the register ... is used, it is incremented." -/
def postInc (a : Auto) (r : RegNum) (s : State) : State :=
  match a with
  | .plain => s
  | .inc => s.setReg r (inc (s.reg r))
  | .dec => s

/-- `SrcVal(m, r, a)` (R73): the source value and the state after the source side effects. -/
def srcVal (a : Auto) (o : Operand) (s : State) : Except Fault (Word × State) :=
  match o with
  | .const k => .ok (zext k, s)
  | .reg r => .ok (s.reg r, s)
  | .mem r =>
    match memRead (preDec a r s) ((preDec a r s).reg r) with
    | .error f => .error f
    | .ok v => .ok (v, postInc a r (preDec a r s))

/-- Where a destination is (R74): nowhere (a constant), a register, or the memory word at `ea` reached through register `r`. -/
inductive Loc where
  | discard (k : RegNum)
  | reg (r : RegNum)
  | mem (ea : Word) (r : RegNum)
deriving DecidableEq, Repr

/-- The first half of `DstPrepare` (R74): resolve the field to a location, with the pre-decrement. This is the whole of
`DstPrepare` for move, which does not read its destination (R76). -/
def dstLocate (a : Auto) (o : Operand) (s : State) : Loc × State :=
  match o with
  | .const k => (.discard k, s)
  | .reg r => (.reg r, s)
  | .mem r => (.mem ((preDec a r s).reg r) r, preDec a r s)

/-- The old value at a location, the second source of every instruction but move (R72, R74). -/
def locRead (l : Loc) (s : State) : Except Fault Word :=
  match l with
  | .discard k => .ok (zext k)
  | .reg r => .ok (s.reg r)
  | .mem ea _ => memRead s ea

/-- `DstPrepare(m, r, a, needRead = true)` (R74): the old value, the location and the state. -/
def dstPrepare (a : Auto) (o : Operand) (s : State) : Except Fault (Word × Loc × State) :=
  match locRead (dstLocate a o s).1 (dstLocate a o s).2 with
  | .error f => .error f
  | .ok d => .ok (d, dstLocate a o s)

/-- `DstCommit(loc, a, result)` (R75): store the result, then post-increment. -/
def dstCommit (a : Auto) (l : Loc) (result : Word) (s : State) : Except Fault State :=
  match l with
  | .discard _ => .ok s
  | .reg r => .ok (s.setReg r result)
  | .mem ea r =>
    match memWrite s ea result with
    | .error f => .error f
    | .ok s' => .ok (postInc a r s')

end Sys2Proof.Machine
end

