-- ==== Sys2Proof/Machine/Arith.lean ====
section
/-! DEFINITION. Format G and the carry group: move, add, sub (41_move_add_sub.md R85 to R88) and addc, subb (42_carry.md R95, R96,
R99), each in the five phases of 40_operands.md R77. -/

namespace Sys2Proof.Machine

/-- Phases 2 to 5 of R77 for an instruction that reads its destination: prepare, compute, write cc, commit. -/
def modifyDst (compute : Word → Computed) (a : Auto) (dst : Operand) (s : State) : Except Fault State :=
  match dstPrepare a dst s with
  | .error f => .error f
  | .ok (d, l, s') => dstCommit a l (compute d).result (s'.setCC (compute d).cc)

/-- Phases 2 to 5 of R77 for move, whose result does not depend on the destination (R76, R85). -/
def overwriteDst (c : Computed) (a : Auto) (dst : Operand) (s : State) : Except Fault State :=
  dstCommit a (dstLocate a dst s).1 c.result ((dstLocate a dst s).2.setCC c.cc)

/-- R88 for add and sub: the source phase, then the rest with the source value. -/
def formatG (compute : Word → Word → Computed) (a : Auto) (src dst : Operand) (s : State) : Except Fault State :=
  match srcVal a src s with
  | .error f => .error f
  | .ok (v, s') => modifyDst (fun d => compute d v) a dst s'

/-- R99: the source register and the carry are read before the destination's pre-decrement. -/
def formatC (compute : Word → Word → Trit → Computed) (a : Auto) (rs : RegNum) (dst : Operand) (s : State) :
    Except Fault State :=
  modifyDst (fun d => compute d (s.reg rs) s.cc.c) a dst s

/-- move (R85, R88). -/
def execMove (a : Auto) (src dst : Operand) (s : State) : Host.Outcome State Fault Refusal :=
  match srcVal a src s with
  | .error f => .fault f
  | .ok (v, s') => outcomeOf (overwriteDst (computeMove v) a dst s')

/-- add (R86, R88). -/
def execAdd (a : Auto) (src dst : Operand) (s : State) : Host.Outcome State Fault Refusal :=
  outcomeOf (formatG computeAdd a src dst s)

/-- sub (R87, R88). -/
def execSub (a : Auto) (src dst : Operand) (s : State) : Host.Outcome State Fault Refusal :=
  outcomeOf (formatG computeSub a src dst s)

/-- addc (R95, R99). -/
def execAddc (a : Auto) (rs : RegNum) (dst : Operand) (s : State) : Host.Outcome State Fault Refusal :=
  outcomeOf (formatC computeAddc a rs dst s)

/-- subb (R96, R99). -/
def execSubb (a : Auto) (rs : RegNum) (dst : Operand) (s : State) : Host.Outcome State Fault Refusal :=
  outcomeOf (formatC computeSubb a rs dst s)

end Sys2Proof.Machine
end

