-- ==== Sys2Proof/Machine/Branch.lean ====
section
/-! DEFINITION. The sixteen conditional branches (44_branch.md R110 to R127): the operand is evaluated with its side effects, taken
or not; if the condition holds pc receives it; cc is unchanged. -/

namespace Sys2Proof.Machine

/-- R110: `T <- SrcVal(sm, sr, a)`, then `x[0] <- T` if the condition holds for cc, the target rule being that of the configuration item
`BRANCH_FORMAT` (D5, D6). UNVERIFIED (log 1). -/
def branch (cond : CC → Bool) (a : Auto) (src : Operand) (s : State) : Except Fault State :=
  match srcVal a src s with
  | .error f => .error f
  | .ok (t, s') => .ok (if cond s.cc then s'.setReg 0 (Config.branchFormat.target t s'.pc) else s')

/-- beq (R112). -/
def execBeq (a : Auto) (src : Operand) (s : State) : Host.Outcome State Fault Refusal :=
  outcomeOf (branch condBeq a src s)

/-- bne (R113). -/
def execBne (a : Auto) (src : Operand) (s : State) : Host.Outcome State Fault Refusal :=
  outcomeOf (branch condBne a src s)

/-- blts (R114). -/
def execBlts (a : Auto) (src : Operand) (s : State) : Host.Outcome State Fault Refusal :=
  outcomeOf (branch condBlts a src s)

/-- bles (R115). -/
def execBles (a : Auto) (src : Operand) (s : State) : Host.Outcome State Fault Refusal :=
  outcomeOf (branch condBles a src s)

/-- bges (R116). -/
def execBges (a : Auto) (src : Operand) (s : State) : Host.Outcome State Fault Refusal :=
  outcomeOf (branch condBges a src s)

/-- bgts (R117). -/
def execBgts (a : Auto) (src : Operand) (s : State) : Host.Outcome State Fault Refusal :=
  outcomeOf (branch condBgts a src s)

/-- bltu (R118). -/
def execBltu (a : Auto) (src : Operand) (s : State) : Host.Outcome State Fault Refusal :=
  outcomeOf (branch condBltu a src s)

/-- bleu (R119). -/
def execBleu (a : Auto) (src : Operand) (s : State) : Host.Outcome State Fault Refusal :=
  outcomeOf (branch condBleu a src s)

/-- bgeu (R120). -/
def execBgeu (a : Auto) (src : Operand) (s : State) : Host.Outcome State Fault Refusal :=
  outcomeOf (branch condBgeu a src s)

/-- bgtu (R121). -/
def execBgtu (a : Auto) (src : Operand) (s : State) : Host.Outcome State Fault Refusal :=
  outcomeOf (branch condBgtu a src s)

/-- bpos (R122). -/
def execBpos (a : Auto) (src : Operand) (s : State) : Host.Outcome State Fault Refusal :=
  outcomeOf (branch condBpos a src s)

/-- bnpos (R123). -/
def execBnpos (a : Auto) (src : Operand) (s : State) : Host.Outcome State Fault Refusal :=
  outcomeOf (branch condBnpos a src s)

/-- bneg (R124). -/
def execBneg (a : Auto) (src : Operand) (s : State) : Host.Outcome State Fault Refusal :=
  outcomeOf (branch condBneg a src s)

/-- bnneg (R125). -/
def execBnneg (a : Auto) (src : Operand) (s : State) : Host.Outcome State Fault Refusal :=
  outcomeOf (branch condBnneg a src s)

/-- bvr (R126). -/
def execBvr (a : Auto) (src : Operand) (s : State) : Host.Outcome State Fault Refusal :=
  outcomeOf (branch condBvr a src s)

/-- bvs (R127). -/
def execBvs (a : Auto) (src : Operand) (s : State) : Host.Outcome State Fault Refusal :=
  outcomeOf (branch condBvs a src s)

end Sys2Proof.Machine
end

