-- ==== Sys2Proof/Machine/Shift.lean ====
section
/-! DEFINITION. The shifts sl, sru, srs (43_shift.md R100 to R106): one operand, both the value shifted and the place the result
goes, with no auto-modify (R104). -/

namespace Sys2Proof.Machine

/-- sl (R100, R104). -/
def execSl (n : Nat) (dst : Operand) (s : State) : Host.Outcome State Fault Refusal :=
  outcomeOf (modifyDst (computeSl n) .plain dst s)

/-- sru (R102, R104). -/
def execSru (n : Nat) (dst : Operand) (s : State) : Host.Outcome State Fault Refusal :=
  outcomeOf (modifyDst (computeSru n) .plain dst s)

/-- srs (R103, R104). -/
def execSrs (n : Nat) (dst : Operand) (s : State) : Host.Outcome State Fault Refusal :=
  outcomeOf (modifyDst (computeSrs n) .plain dst s)

end Sys2Proof.Machine
end

