-- ==== Sys2Proof/Machine/Dispatch.lean ====
section
/-! DEFINITION. The dispatch: one arm per constructor of `Instr`, each one direct call of its meaning. -/

namespace Sys2Proof.Machine

def exec (i : Instr) (s : State) : Host.Outcome State Fault Refusal :=
  match i with
  | .move a src dst => Sys2Proof.Machine.execMove a src dst s
  | .add a src dst => Sys2Proof.Machine.execAdd a src dst s
  | .sub a src dst => Sys2Proof.Machine.execSub a src dst s
  | .addc a rs dst => Sys2Proof.Machine.execAddc a rs dst s
  | .subb a rs dst => Sys2Proof.Machine.execSubb a rs dst s
  | .sl n dst => Sys2Proof.Machine.execSl n dst s
  | .sru n dst => Sys2Proof.Machine.execSru n dst s
  | .srs n dst => Sys2Proof.Machine.execSrs n dst s
  | .beq a src => Sys2Proof.Machine.execBeq a src s
  | .bne a src => Sys2Proof.Machine.execBne a src s
  | .blts a src => Sys2Proof.Machine.execBlts a src s
  | .bles a src => Sys2Proof.Machine.execBles a src s
  | .bges a src => Sys2Proof.Machine.execBges a src s
  | .bgts a src => Sys2Proof.Machine.execBgts a src s
  | .bltu a src => Sys2Proof.Machine.execBltu a src s
  | .bleu a src => Sys2Proof.Machine.execBleu a src s
  | .bgeu a src => Sys2Proof.Machine.execBgeu a src s
  | .bgtu a src => Sys2Proof.Machine.execBgtu a src s
  | .bpos a src => Sys2Proof.Machine.execBpos a src s
  | .bnpos a src => Sys2Proof.Machine.execBnpos a src s
  | .bneg a src => Sys2Proof.Machine.execBneg a src s
  | .bnneg a src => Sys2Proof.Machine.execBnneg a src s
  | .bvr a src => Sys2Proof.Machine.execBvr a src s
  | .bvs a src => Sys2Proof.Machine.execBvs a src s

end Sys2Proof.Machine
end

