-- ==== Sys2Proof/Machine/Step.lean ====
section
/-! DEFINITION. One step of the machine, 40_operands.md R70, and the placing of an instruction where the next step fetches. -/

namespace Sys2Proof.Machine

/-- R70: fetch, increment pc, decode, execute. A reserved word is the fault of R141, with the word and its address. -/
def step (s : State) : Host.Outcome State Fault Refusal :=
  match fetch s with
  | .error f => .fault f
  | .ok (ir, s') =>
    match decode ir with
    | .error _ => .fault (.reservedInstruction ir s.pc)
    | .ok i => exec i s'

/-- The state with the instruction word numbered `w` (its unsigned value, log 8) at pc and two operand words of zeros after it, all
three addresses populated: what a load of that instruction leaves (log 9). Unchanged where `w` is no 9-trit word. -/
def State.withFetchWord (s : State) (_nbits w : Nat) : State :=
  if w < W then
    { s with
      mem := ((s.mem.store (u s.pc) (Word.ofNat w)).store (u (inc s.pc)) 0).store (u (inc (inc s.pc))) 0
      unpopulated := s.unpopulated.filter fun a =>
        decide (a ≠ s.pc ∧ a ≠ inc s.pc ∧ a ≠ inc (inc s.pc)) }
  else s

end Sys2Proof.Machine
end

