-- ==== Sys2Proof/Machine/Access.lean ====
section
/-! DEFINITION. Which memory words one instruction reads and writes, in order (20_memory.md R31, R35). The addresses are computed
with the operations the meanings use. -/

namespace Sys2Proof.Machine

/-- One access: exactly one word (R35). -/
inductive Access where
  | read (addr : Word)
  | write (addr : Word)
deriving DecidableEq, Repr

/-- The accesses of a source operand: one read if src.m = 2 (R35, R73). -/
def srcAccesses (a : Auto) (o : Operand) (s : State) : List Access :=
  match o with
  | .const _ => []
  | .reg _ => []
  | .mem r => [.read ((preDec a r s).reg r)]

/-- The accesses of a destination operand: a read, unless the instruction is move, and a write to the same address (R35, R76). -/
def dstAccesses (needRead : Bool) (a : Auto) (o : Operand) (s : State) : List Access :=
  match (dstLocate a o s).1 with
  | .discard _ => []
  | .reg _ => []
  | .mem ea _ => if needRead then [.read ea, .write ea] else [.write ea]

/-- The accesses of a Format G instruction: the destination's are computed after the source phase (R77). -/
def gAccesses (needRead : Bool) (a : Auto) (src dst : Operand) (s : State) : List Access :=
  srcAccesses a src s ++
    match srcVal a src s with
    | .error _ => []
    | .ok (_, s') => dstAccesses needRead a dst s'

/-- The accesses of an instruction after its fetch, `s` being the state after the fetch (R35). Where one of them faults, those
before it have happened and those after it do not. -/
def accesses (i : Instr) (s : State) : List Access :=
  match i with
  | .move a src dst => gAccesses false a src dst s
  | .add a src dst => gAccesses true a src dst s
  | .sub a src dst => gAccesses true a src dst s
  | .addc a _ dst => dstAccesses true a dst s
  | .subb a _ dst => dstAccesses true a dst s
  | .sl _ dst => dstAccesses true .plain dst s
  | .sru _ dst => dstAccesses true .plain dst s
  | .srs _ dst => dstAccesses true .plain dst s
  | .beq a src => srcAccesses a src s
  | .bne a src => srcAccesses a src s
  | .blts a src => srcAccesses a src s
  | .bles a src => srcAccesses a src s
  | .bges a src => srcAccesses a src s
  | .bgts a src => srcAccesses a src s
  | .bltu a src => srcAccesses a src s
  | .bleu a src => srcAccesses a src s
  | .bgeu a src => srcAccesses a src s
  | .bgtu a src => srcAccesses a src s
  | .bpos a src => srcAccesses a src s
  | .bnpos a src => srcAccesses a src s
  | .bneg a src => srcAccesses a src s
  | .bnneg a src => srcAccesses a src s
  | .bvr a src => srcAccesses a src s
  | .bvs a src => srcAccesses a src s

/-- The accesses of one step, the fetch first (R35). -/
def stepAccesses (s : State) : List Access :=
  .read s.pc ::
    match fetch s with
    | .error _ => []
    | .ok (ir, s') =>
      match decode ir with
      | .error _ => []
      | .ok i => accesses i s'

end Sys2Proof.Machine
end

