-- ==== Sys2Proof/Machine/Assembler.lean ====
section
/-! DEFINITION. The assembler of 30_encoding.md R59 to R67: statements to words, with `.word`, labels, the dot, expressions, and the
one pseudo-instruction, an out-of-range constant turned into an immediate (R65). Then the text of a line (R59, R60). -/

namespace Sys2Proof.Asm

/-- A label, as its characters. -/
abbrev Label := List Char

/-- Expressions over labels, the dot and decimal numbers with `+`, `-` and parentheses (R64). -/
inductive Expr where
  | num (n : Nat)
  | dot
  | label (l : Label)
  | add (x y : Expr)
  | sub (x y : Expr)
deriving DecidableEq, Repr

/-- An operand as written (R60, R61). -/
inductive Written where
  /-- `=` alone: discard. -/
  | discard
  /-- `=expr`. -/
  | const (e : Expr)
  /-- `rN`, `pc`, `sp`. -/
  | reg (r : RegNum)
  /-- `*rN`, `*pc`, `*sp`. -/
  | ind (r : RegNum)
  /-- A bare number, the count of a shift. -/
  | count (n : Nat)
deriving DecidableEq, Repr

/-- What a line places: a word, or an instruction with its suffix and operands (R59, R64). -/
inductive Body where
  | word (e : Expr)
  | op (mnemonic : List Char) (suffix : Auto) (operands : List Written)
deriving DecidableEq, Repr

/-- A line: labels, then perhaps a body (R59). -/
structure Line where
  labels : List Label
  body : Option Body
deriving DecidableEq, Repr

/-- Why a line cannot be assembled. -/
inductive AsmError where
  /-- The text is no statement of R59 and R60. -/
  | badText
  /-- No instruction has this mnemonic. -/
  | unknownMnemonic
  /-- The operands do not fit the instruction (R59 to R63). -/
  | badOperands
  /-- A label that no line defines. -/
  | undefinedLabel
  /-- A value over 19,682, which no word holds (log 12). -/
  | valueRange
  /-- A destination constant outside 0..8: only the src field may be an immediate (R65). -/
  | dstConstant
  /-- An out-of-range constant where a = 1 cannot be used for it (R65). -/
  | immediateImpossible
  /-- A suffix with no memory-mode operand (R56, log 12). -/
  | suffixWithoutMemory
  /-- A shift count outside 1..9 (R61). -/
  | countRange
  /-- A suffix on a shift (R61). -/
  | suffixOnShift
  /-- The label addresses do not settle (log 12). -/
  | labelMoved
deriving DecidableEq, Repr

/-- The address of each label (R64). -/
abbrev Env := List (Label × Word)

/-- The value of an expression, the dot being the address of the word being assembled (R64). -/
def Expr.eval (env : Env) (dot : Word) : Expr → Except AsmError Int
  | .num n => .ok n
  | .dot => .ok (u dot)
  | .label l =>
    match env.lookup l with
    | some a => .ok (u a)
    | none => .error .undefinedLabel
  | .add x y =>
    match Expr.eval env dot x, Expr.eval env dot y with
    | .ok m, .ok n => .ok (m + n)
    | .error e, _ => .error e
    | _, .error e => .error e
  | .sub x y =>
    match Expr.eval env dot x, Expr.eval env dot y with
    | .ok m, .ok n => .ok (m - n)
    | .error e, _ => .error e
    | _, .error e => .error e

/-- The word of a value: a negative one, however low, is stored modulo 19,683, as its 3's complement (R64). -/
def wordOf (n : Int) : Except AsmError Word :=
  if n ≤ (MAXU : Int) then .ok (Word.ofInt n) else .error .valueRange

/-- Whether a written operand is in memory mode (R60). -/
def Written.isMem : Written → Bool
  | .ind _ => true
  | _ => false

/-- A source operand with the a it needs and the words that follow the instruction: a constant in 0..8 is constant mode, any other
one an immediate where a = 1 changes nothing else (R60, R65). -/
def source (env : Env) (dot : Word) (a : Auto) (dstMem : Bool) : Written → Except AsmError (Auto × Operand × List Word)
  | .reg r => .ok (a, .reg r, [])
  | .ind r => .ok (a, .mem r, [])
  | .const e =>
    match Expr.eval env dot e with
    | .error x => .error x
    | .ok n =>
      if 0 ≤ n ∧ n ≤ 8 then .ok (a, .const (Fin.ofNat 9 n.toNat), [])
      else if a = .inc ∨ (a = .plain ∧ dstMem = false) then
        match wordOf n with
        | .ok w => .ok (.inc, .mem 0, [w])
        | .error x => .error x
      else .error .immediateImpossible
  | .discard => .error .badOperands
  | .count _ => .error .badOperands

/-- A destination operand: `=` alone is r = 0 (R60, R67, D19). -/
def destination (env : Env) (dot : Word) : Written → Except AsmError Operand
  | .discard => .ok (.const 0)
  | .reg r => .ok (.reg r)
  | .ind r => .ok (.mem r)
  | .const e =>
    match Expr.eval env dot e with
    | .error x => .error x
    | .ok n => if 0 ≤ n ∧ n ≤ 8 then .ok (.const (Fin.ofNat 9 n.toNat)) else .error .dstConstant
  | .count _ => .error .badOperands

/-- The words of an instruction; a suffix with nothing to act on is refused (R56, log 12). -/
def emit (i : Instr) (rest : List Word) : Except AsmError (List Word) :=
  if i.wellFormed then .ok (encode i :: rest) else .error .suffixWithoutMemory

/-- `opcode src,dst` (R59, R60). -/
def emitG (mk : Auto → Operand → Operand → Instr) (env : Env) (dot : Word) (a : Auto) :
    List Written → Except AsmError (List Word)
  | [s, d] =>
    match source env dot a d.isMem s, destination env dot d with
    | .ok (a', src, rest), .ok dst => emit (mk a' src dst) rest
    | .error e, _ => .error e
    | _, .error e => .error e
  | _ => .error .badOperands

/-- `opcode rS,dst`: the source must be a register (R62). -/
def emitC (mk : Auto → RegNum → Operand → Instr) (env : Env) (dot : Word) (a : Auto) :
    List Written → Except AsmError (List Word)
  | [.reg r, d] =>
    match destination env dot d with
    | .ok dst => emit (mk a r dst) []
    | .error e => .error e
  | _ => .error .badOperands

/-- `opcode n,dst`: a bare count 1..9 and no suffix (R61). -/
def emitS (mk : Nat → Operand → Instr) (env : Env) (dot : Word) (a : Auto) : List Written → Except AsmError (List Word)
  | [.count n, d] =>
    if a ≠ .plain then .error .suffixOnShift
    else if countOk n then
      match destination env dot d with
      | .ok dst => emit (mk n dst) []
      | .error e => .error e
    else .error .countRange
  | _ => .error .badOperands

/-- `bxx src` (R63). -/
def emitB (mk : Auto → Operand → Instr) (env : Env) (dot : Word) (a : Auto) : List Written → Except AsmError (List Word)
  | [s] =>
    match source env dot a false s with
    | .ok (a', src, rest) => emit (mk a' src) rest
    | .error e => .error e
  | _ => .error .badOperands

/-- The branch mnemonics, in the order of their condition numbers (R55). -/
def branchNames : List (List Char) :=
  [['b', 'e', 'q'], ['b', 'n', 'e'], ['b', 'l', 't', 's'], ['b', 'l', 'e', 's'], ['b', 'g', 'e', 's'],
    ['b', 'g', 't', 's'], ['b', 'l', 't', 'u'], ['b', 'l', 'e', 'u']] ++
  [['b', 'g', 'e', 'u'], ['b', 'g', 't', 'u'], ['b', 'p', 'o', 's'], ['b', 'n', 'p', 'o', 's'],
    ['b', 'n', 'e', 'g'], ['b', 'n', 'n', 'e', 'g'], ['b', 'v', 'r'], ['b', 'v', 's']]

/-- The place of a name in a list of names. -/
def indexOf (name : List Char) : List (List Char) → Nat → Option Nat
  | [], _ => none
  | x :: xs, k => if name = x then some k else indexOf name xs (k + 1)

/-- The words of an instruction line, by its mnemonic (R50 to R55). -/
def emitOp (env : Env) (dot : Word) (name : List Char) (a : Auto) (ops : List Written) :
    Except AsmError (List Word) :=
  if name = ['m', 'o', 'v', 'e'] then emitG .move env dot a ops
  else if name = ['a', 'd', 'd'] then emitG .add env dot a ops
  else if name = ['s', 'u', 'b'] then emitG .sub env dot a ops
  else if name = ['a', 'd', 'd', 'c'] then emitC .addc env dot a ops
  else if name = ['s', 'u', 'b', 'b'] then emitC .subb env dot a ops
  else if name = ['s', 'l'] then emitS .sl env dot a ops
  else if name = ['s', 'r', 'u'] then emitS .sru env dot a ops
  else if name = ['s', 'r', 's'] then emitS .srs env dot a ops
  else
    match (indexOf name branchNames 0).bind branchOf with
    | some mk => emitB mk env dot a ops
    | none => .error .unknownMnemonic

/-- The words of a line's body at an address (R59 to R65). -/
def Body.emit (env : Env) (dot : Word) : Body → Except AsmError (List Word)
  | .op name a ops => emitOp env dot name a ops
  | .word e =>
    match Expr.eval env dot e with
    | .error x => .error x
    | .ok n =>
      match wordOf n with
      | .ok w => .ok [w]
      | .error x => .error x

/-- The words of a line (R59). -/
def Line.emit (env : Env) (dot : Word) (l : Line) : Except AsmError (List Word) :=
  match l.body with
  | none => .ok []
  | some b => b.emit env dot

/-- The address `n` words on. -/
def advance (a : Word) (n : Nat) : Word := Word.ofNat (u a + n)

/-- The words of a program from an address on, checking that each label stands where `env` says (R64). -/
def emitAll (env : Env) : Word → List Line → Except AsmError (List Word)
  | _, [] => .ok []
  | dot, l :: ls =>
    if l.labels.all fun x => env.lookup x == some dot then
      match l.emit env dot with
      | .error e => .error e
      | .ok ws =>
        match emitAll env (advance dot ws.length) ls with
        | .error e => .error e
        | .ok rest => .ok (ws ++ rest)
    else .error .labelMoved

/-- The label addresses of a program, the line lengths being those that `env` gives (one word where a line cannot be assembled
yet). -/
def layout (env : Env) : Word → List Line → Env
  | _, [] => []
  | dot, l :: ls =>
    l.labels.map (fun x => (x, dot)) ++
      layout env (advance dot (match l.emit env dot with | .ok ws => ws.length | .error _ => 1)) ls

/-- `k` rounds of `layout`. -/
def settle (origin : Word) (ls : List Line) : Nat → Env → Env
  | 0, env => env
  | k + 1, env => settle origin ls k (layout env origin ls)

/-- The words of a program placed at `origin`. Label addresses are settled by rounds of layout, from a first guess that takes every
label as out of the range of a constant; a program whose addresses do not settle is refused (log 12). -/
def assemble (origin : Word) (ls : List Line) : Except AsmError (List Word) :=
  emitAll (settle origin ls (ls.length + 1) (ls.flatMap fun l => l.labels.map fun x => (x, Word.ofNat HALF))) origin ls

/-! The text of a line (R59, R60). -/

/-- The words and marks a line is made of. -/
inductive Tok where
  | ident (cs : List Char)
  | directive (cs : List Char)
  | num (n : Nat)
  | plus
  | minus
  | star
  | eq
  | comma
  | colon
  | lpar
  | rpar
  | dot
deriving DecidableEq, Repr

/-- A letter of a name (log 12). -/
def isNameChar (c : Char) : Bool := c.isAlphanum || c == '_'

/-- The value of a string of decimal digits. -/
def decimal (cs : List Char) : Nat := cs.foldl (fun n c => n * 10 + (c.toNat - 48)) 0

/-- The mark a character is. -/
def markOf (c : Char) : Option Tok :=
  if c = '+' then some .plus
  else if c = '-' then some .minus
  else if c = '*' then some .star
  else if c = '=' then some .eq
  else if c = ',' then some .comma
  else if c = ':' then some .colon
  else if c = '(' then some .lpar
  else if c = ')' then some .rpar
  else if c = '.' then some .dot
  else none

/-- The tokens of a line; white space separates and a semicolon ends it (R59). -/
def tokens : Nat → List Char → Option (List Tok)
  | 0, _ => none
  | _ + 1, [] => some []
  | f + 1, c :: cs =>
    if c = ' ' ∨ c = '\t' then tokens f cs
    else if c = ';' then some []
    else if c.isDigit then
      (tokens f (cs.dropWhile Char.isDigit)).map fun ts => .num (decimal (c :: cs.takeWhile Char.isDigit)) :: ts
    else if isNameChar c then
      (tokens f (cs.dropWhile isNameChar)).map fun ts => .ident (c :: cs.takeWhile isNameChar) :: ts
    else if c = '.' ∧ (cs.takeWhile Char.isAlpha) ≠ [] then
      (tokens f (cs.dropWhile Char.isAlpha)).map fun ts => .directive (cs.takeWhile Char.isAlpha) :: ts
    else
      match markOf c with
      | none => none
      | some t => (tokens f cs).map fun ts => t :: ts

/-- The register of a name: `pc` is r0, `sp` is r8 (R15, R60). -/
def regOf : List Char → Option RegNum
  | ['p', 'c'] => some 0
  | ['s', 'p'] => some 8
  | ['r', d] => if '0' ≤ d ∧ d ≤ '8' then some (Fin.ofNat 9 (d.toNat - 48)) else none
  | _ => none

/-- An expression and what follows it; `pend` is a left operand waiting for its right one, with the sign between them (R64). -/
def exprFrom : Nat → Option (Expr × Bool) → List Tok → Option (Expr × List Tok)
  | 0, _, _ => none
  | f + 1, pend, ts =>
    let term : Option (Expr × List Tok) :=
      match ts with
      | .num n :: r => some (.num n, r)
      | .dot :: r => some (.dot, r)
      | .ident l :: r => some (.label l, r)
      | .lpar :: r =>
        match exprFrom f none r with
        | some (e, .rpar :: r') => some (e, r')
        | _ => none
      | _ => none
    match term with
    | none => none
    | some (t, r) =>
      let x := match pend with
        | none => t
        | some (y, true) => .add y t
        | some (y, false) => .sub y t
      match r with
      | .plus :: r' => exprFrom f (some (x, true)) r'
      | .minus :: r' => exprFrom f (some (x, false)) r'
      | _ => some (x, r)

/-- One operand and what follows it (R60, R61). -/
def operandFrom (f : Nat) : List Tok → Option (Written × List Tok)
  | [.eq] => some (.discard, [])
  | .eq :: .comma :: r => some (.discard, .comma :: r)
  | .eq :: r => (exprFrom f none r).map fun p => (.const p.1, p.2)
  | .star :: .ident n :: r => (regOf n).map fun i => (.ind i, r)
  | .ident n :: r => (regOf n).map fun i => (.reg i, r)
  | .num n :: r => some (.count n, r)
  | _ => none

/-- The operands of a line, separated by commas (R59). -/
def operandsFrom : Nat → List Tok → Option (List Written)
  | 0, _ => none
  | f + 1, ts =>
    match operandFrom f ts with
    | some (o, []) => some [o]
    | some (o, .comma :: r) => (operandsFrom f r).map fun os => o :: os
    | _ => none

/-- The body of a line: nothing, `.word expr`, or an opcode with its suffix and operands (R59, R64). -/
def bodyFrom (f : Nat) : List Tok → Option (Option Body)
  | [] => some none
  | .directive ['w', 'o', 'r', 'd'] :: r =>
    match exprFrom f none r with
    | some (e, []) => some (some (.word e))
    | _ => none
  | .ident m :: .plus :: r => (operandsFrom f r).map fun os => some (.op m .inc os)
  | .ident m :: .minus :: r => (operandsFrom f r).map fun os => some (.op m .dec os)
  | .ident m :: r => (operandsFrom f r).map fun os => some (.op m .plain os)
  | _ => none

/-- The line of a list of tokens: labels, each followed by a colon, then the body (R59). -/
def lineFrom (f : Nat) : List Tok → Option Line
  | .ident l :: .colon :: r => (lineFrom f r).map fun x => { x with labels := l :: x.labels }
  | ts => (bodyFrom f ts).map fun b => ⟨[], b⟩

/-- The line a text is (R59). -/
def parseLine (cs : List Char) : Option Line :=
  (tokens (cs.length + 1) cs).bind fun ts => lineFrom (ts.length + 1) ts

/-- The words of a program given as text lines, placed at `origin` (R59 to R67). -/
def assembleText (origin : Word) (text : List (List Char)) : Except AsmError (List Word) :=
  match text.mapM parseLine with
  | some ls => assemble origin ls
  | none => .error .badText

end Sys2Proof.Asm
end

