-- ==== Sys2Proof/Machine/Launch.lean ====
section
/-! DEFINITION. The launch state a host supplies before a run: R160, R161, R163 of 70_reset_and_hazards.md. -/

namespace Sys2Proof.Machine

/-- Memory holding an image: the words written one after the other, a later one over an earlier one at the same address (R163). -/
def Memory.load (image : List (Word × Word)) : Memory :=
  image.foldl (fun m cell => m.store (u cell.1) cell.2) []

/-- The launch state (R160): pc = `RESET_PC`, memory = `MEM_INIT`, and the values of r1 to r8 (entry 0 of `regs` is ignored) and cc
that the host supplies or that are drawn for the unspecified state (R161, R167). Words of the image at addresses `MEM_MAP` leaves out
are not stored (log 6). -/
def State.launch (resetPc : Word) (memInit : List (Word × Word)) (regs : Vector Word 9) (cc : CC)
    (unpopulated : List Word) : State where
  regs := regs.set 0 resetPc
  cc := cc
  mem := Memory.load (memInit.filter fun cell => !unpopulated.contains cell.1)
  unpopulated := unpopulated

/-- The image that places words one after the other from an address on (R64: each `.word` one word), wrapping as pc does. -/
def placeAt (addr : Word) : List Word → List (Word × Word)
  | [] => []
  | w :: ws => (addr, w) :: placeAt (inc addr) ws

end Sys2Proof.Machine
end

