-- ==== Sys2Proof/Safety.lean ====
section
/-! DEFINITION. What counts as a run and as a safe one: the end of a run at `END_PC` (70_reset_and_hazards.md R164, R167), and the
invariant of the model's states. -/

namespace Sys2Proof.Machine

/-- Where a run stands after some steps (R164). -/
inductive RunResult where
  /-- pc reached `END_PC` at an instruction boundary: this is the end state. -/
  | ended (s : State)
  /-- The run has not ended yet. -/
  | running (s : State)
  /-- A fault stopped it: such a run does not end. -/
  | faulted (f : Fault)
  /-- The model refused an instruction: such a run does not end. -/
  | refused (r : Refusal)
deriving DecidableEq, Repr

/-- At most `k` steps towards `END_PC` (R164): the word at `END_PC` is not fetched. -/
def runTo (endPc : Word) : Nat → State → RunResult
  | 0, s => if s.pc = endPc then .ended s else .running s
  | k + 1, s =>
    if s.pc = endPc then .ended s
    else
      match step s with
      | .next t => runTo endPc k t
      | .fault f => .faulted f
      | .refused r => .refused r

/-- The run from `s` is over in the end state `t` (R164). -/
def Ends (endPc : Word) (s t : State) : Prop := ∃ k, runTo endPc k s = .ended t

/-- The invariant of the states: memory in its canonical form (log 4) and no word held at an address that `MEM_MAP` leaves out
(R36, R142). -/
def Inv (s : State) : Prop :=
  Memory.wf s.mem = true ∧ ∀ a : Word, s.populated a = false → s.word a = none

/-! The words claims use for operands, written from the table of 40_operands.md R71 and not from the operations. -/

/-- The address a memory-mode operand names (R71). -/
def operandAddr (a : Auto) (r : RegNum) (s : State) : Word :=
  match a with
  | .plain => s.reg r
  | .inc => s.reg r
  | .dec => dec (s.reg r)

/-- What the address register holds after its operand (R71). -/
def registerAfter (a : Auto) (p : Word) : Word :=
  match a with
  | .plain => p
  | .inc => inc p
  | .dec => dec p

/-- The source operand can be read, has value `v` and leaves the state `s'` (R71 to R73). -/
def SourceIs (a : Auto) (o : Operand) (s : State) (v : Word) (s' : State) : Prop :=
  match o with
  | .const k => u v = k.val ∧ s' = s
  | .reg r => v = s.reg r ∧ s' = s
  | .mem r =>
    s.populated (operandAddr a r s) = true ∧ s.word (operandAddr a r s) = some v ∧
      s' = s.setReg r (registerAfter a (s.reg r))

/-- The destination operand can be read as a second source, and holds `d` (R72, R74). -/
def DestIs (a : Auto) (o : Operand) (s : State) (d : Word) : Prop :=
  match o with
  | .const k => u d = k.val
  | .reg r => d = s.reg r
  | .mem r => s.populated (operandAddr a r s) = true ∧ s.word (operandAddr a r s) = some d

/-- The destination operand can be written (R75, R142). -/
def DestWritable (a : Auto) (o : Operand) (s : State) : Prop :=
  match o with
  | .const _ => True
  | .reg _ => True
  | .mem r => s.populated (operandAddr a r s) = true

/-- The state after the result `w` and the condition codes `cc` are written (R72, R75, R77): a constant destination discards the
result. -/
def destAfter (a : Auto) (o : Operand) (s : State) (w : Word) (cc : CC) : State :=
  match o with
  | .const _ => { s with cc := cc }
  | .reg r => ({ s with cc := cc } : State).setReg r w
  | .mem r =>
    ({ s with cc := cc, mem := s.mem.store (u (operandAddr a r s)) w } : State).setReg r (registerAfter a (s.reg r))

/-- The read of an operand, if it is in memory mode (R35, R71). -/
def readOf (a : Auto) (o : Operand) (s : State) : List Access :=
  match o with
  | .const _ => []
  | .reg _ => []
  | .mem r => [.read (operandAddr a r s)]

/-- The write of a destination, if it is in memory mode (R35, R71). -/
def writeOf (a : Auto) (o : Operand) (s : State) : List Access :=
  match o with
  | .const _ => []
  | .reg _ => []
  | .mem r => [.write (operandAddr a r s)]

/-- The registers an operand's auto-modification writes (R71). -/
def autoRegs (a : Auto) (o : Operand) : List RegNum :=
  match o with
  | .const _ => []
  | .reg _ => []
  | .mem r => if a = .plain then [] else [r]

/-- The registers a destination writes: the register itself, or the address register it auto-modifies (R71, R75). -/
def dstRegs (a : Auto) (o : Operand) : List RegNum :=
  match o with
  | .const _ => []
  | .reg r => [r]
  | .mem r => if a = .plain then [] else [r]

/-- A branch's a field and operand; none for the other instructions (R110). -/
def branchParts : Instr → Option (Auto × Operand)
  | .move _ _ _ => none
  | .add _ _ _ => none
  | .sub _ _ _ => none
  | .addc _ _ _ => none
  | .subb _ _ _ => none
  | .sl _ _ => none
  | .sru _ _ => none
  | .srs _ _ => none
  | .beq a src => some (a, src)
  | .bne a src => some (a, src)
  | .blts a src => some (a, src)
  | .bles a src => some (a, src)
  | .bges a src => some (a, src)
  | .bgts a src => some (a, src)
  | .bltu a src => some (a, src)
  | .bleu a src => some (a, src)
  | .bgeu a src => some (a, src)
  | .bgtu a src => some (a, src)
  | .bpos a src => some (a, src)
  | .bnpos a src => some (a, src)
  | .bneg a src => some (a, src)
  | .bnneg a src => some (a, src)
  | .bvr a src => some (a, src)
  | .bvs a src => some (a, src)

/-- Whether an instruction may leave pc elsewhere than at the word after it: pc is its register destination, or it is
auto-decremented, or the instruction is a branch (R58, R70, R79). -/
def mayMovePc (i : Instr) : Bool :=
  match i with
  | .move a src dst => dst == .reg 0 || a == .dec && (src == .mem 0 || dst == .mem 0)
  | .add a src dst => dst == .reg 0 || a == .dec && (src == .mem 0 || dst == .mem 0)
  | .sub a src dst => dst == .reg 0 || a == .dec && (src == .mem 0 || dst == .mem 0)
  | .addc a _ dst => dst == .reg 0 || a == .dec && dst == .mem 0
  | .subb a _ dst => dst == .reg 0 || a == .dec && dst == .mem 0
  | .sl _ dst => dst == .reg 0
  | .sru _ dst => dst == .reg 0
  | .srs _ dst => dst == .reg 0
  | .beq _ _ => true
  | .bne _ _ => true
  | .blts _ _ => true
  | .bles _ _ => true
  | .bges _ _ => true
  | .bgts _ _ => true
  | .bltu _ _ => true
  | .bleu _ _ => true
  | .bgeu _ _ => true
  | .bgtu _ _ => true
  | .bpos _ _ => true
  | .bnpos _ _ => true
  | .bneg _ _ => true
  | .bnneg _ _ => true
  | .bvr _ _ => true
  | .bvs _ _ => true

end Sys2Proof.Machine
end

