-- ==== Sys2Proof/Certificates/Slice0/Obligations.lean ====
section
/-! DEFINITION. The statements for the provers. `exec i s` runs a decoded instruction on the state after its fetch (40_operands.md
R70), so `s.pc` is there the address of the next word; `step s` is a whole step. -/

open Sys2Proof Sys2Proof.Machine

/-! Encoding (30_encoding.md). -/

/-- R50 to R53, R55, R57: decoding the first word of a well-formed instruction gives the instruction back, every operand at every
value. The op values of the carry, shift and branch groups are the spec's own defaults (D4, D5; log 1). -/
def Obligations.DecodeOfEncode : Prop :=
  ∀ i : Instr, i.wellFormed = true → decode (encode i) = .ok i

/-- R57: what decodes is well formed and has that word as its encoding, so no word reads as another word's instruction
(op values: D4, D5; log 1). -/
def Obligations.EncodeOfDecode : Prop :=
  ∀ (ir : Word) (i : Instr), decode ir = .ok i → i.wellFormed = true ∧ encode i = ir

/-- R56: the reserved words are exactly those of the seven rows, given by their trits, and each is rejected under its row's name (a
word of rows 3 and 4 under row 3, of rows 6 and 7 under row 6, as R57 counts). Reserving them is the spec's decision (D8, D20; log 7),
and the op values are its defaults (log 1). -/
def Obligations.ReservedWordsAreTheSevenRows : Prop :=
  ∀ ir : Word,
    (decode ir = .error .opUnassigned ↔ trit ir 8 = 2) ∧
    (decode ir = .error .autoWithoutMemoryG ↔ trit ir 8 = 0 ∧ trit ir 6 ≠ 0 ∧ trit ir 5 ≠ 2 ∧ trit ir 2 ≠ 2) ∧
    (decode ir = .error .carryUnassigned ↔ trit ir 8 = 1 ∧ trit ir 7 = 0 ∧ trit ir 5 = 0) ∧
    (decode ir = .error .autoWithoutMemoryC ↔
      trit ir 8 = 1 ∧ trit ir 7 = 0 ∧ trit ir 5 ≠ 0 ∧ trit ir 6 ≠ 0 ∧ trit ir 2 ≠ 2) ∧
    (decode ir = .error .shiftAuto ↔ trit ir 8 = 1 ∧ trit ir 7 = 1 ∧ trit ir 6 ≠ 0) ∧
    (decode ir = .error .conditionUnassigned ↔
      trit ir 8 = 1 ∧ trit ir 7 = 2 ∧ 16 ≤ 9 * (trit ir 2).val + 3 * (trit ir 1).val + (trit ir 0).val) ∧
    (decode ir = .error .autoWithoutMemoryB ↔
      trit ir 8 = 1 ∧ trit ir 7 = 2 ∧ 9 * (trit ir 2).val + 3 * (trit ir 1).val + (trit ir 0).val < 16 ∧
        trit ir 6 ≠ 0 ∧ trit ir 5 ≠ 2)

/-- R68: the eighteen worked encodings decode to the instructions they stand for ("The values of op 10, 11, 12 in the last nine rows
are the spec's choice (D4, D5)"; log 1). -/
def Obligations.WorkedEncodingsDecode : Prop :=
  decode 10 = .ok (.move .plain (.const 0) (.reg 1)) ∧
  decode 387 = .ok (.move .plain (.reg 5) (.reg 0)) ∧
  decode 1224 = .ok (.move .inc (.mem 0) (.reg 0)) ∧
  decode 1133 = .ok (.move .inc (.reg 5) (.mem 8)) ∧
  decode 2175 = .ok (.move .dec (.mem 8) (.reg 6)) ∧
  decode 2224 = .ok (.add .plain (.const 1) (.reg 1)) ∧
  decode 3441 = .ok (.add .inc (.mem 1) (.reg 3)) ∧
  decode 4676 = .ok (.sub .plain (.reg 2) (.const 5)) ∧
  decode 6871 = .ok (.addc .plain 2 (.reg 4)) ∧
  decode 7609 = .ok (.addc .inc 2 (.mem 4)) ∧
  decode 7114 = .ok (.subb .plain 2 (.reg 4)) ∧
  decode 8785 = .ok (.sl 1 (.reg 1)) ∧
  decode 8750 = .ok (.sl 9 (.const 2)) ∧
  decode 9065 = .ok (.sru 2 (.mem 2)) ∧
  decode 9277 = .ok (.srs 1 (.reg 7)) ∧
  decode 12151 = .ok (.bne .inc (.mem 0)) ∧
  decode 11315 = .ok (.blts .plain (.reg 5)) ∧
  decode 11031 = .ok (.bvs .plain (.const 3))

/-! The step (40_operands.md R70). -/

/-- R70: a step whose fetched word decodes runs that instruction on the state with pc incremented. -/
def Obligations.StepRunsDecodedInstruction : Prop :=
  ∀ (s : State) (ir : Word) (i : Instr), s.populated s.pc = true → s.word s.pc = some ir → decode ir = .ok i →
    step s = exec i (s.setReg 0 (inc s.pc))

/-- R58, R70: after an instruction that does not itself move pc, the next fetch is at A plus the instruction's length,
modulo 19,683 (D2; log 7). -/
def Obligations.PcAdvancesByLength : Prop :=
  ∀ (s t : State) (ir : Word) (i : Instr), s.word s.pc = some ir → decode ir = .ok i → mayMovePc i = false →
    step s = .next t → u t.pc = (u s.pc + i.length) % W

/-! Results of the instructions. Source and destination are in any form that can be read (`SourceIs`, `DestIs`, Safety.lean). -/

/-- R85: move. The destination is not read (R76, D18; log 7), so it need only be writable. -/
def Obligations.MoveResult : Prop :=
  ∀ (a : Auto) (src dst : Operand) (s s' : State) (v : Word), SourceIs a src s v s' → DestWritable a dst s' →
    exec (.move a src dst) s = .next (destAfter a dst s' v ⟨sign3 v, 0, 0⟩)

/-- R86: add; v is judged on the exact signed sum (R90, D17; log 7). -/
def Obligations.AddResult : Prop :=
  ∀ (a : Auto) (src dst : Operand) (s s' : State) (v d : Word), SourceIs a src s v s' → DestIs a dst s' d →
    ∃ w cc, exec (.add a src dst) s = .next (destAfter a dst s' w cc) ∧
      u w = (u d + u v) % W ∧ cc.s = sign3 w ∧ cc.c.val = (u d + u v) / W ∧
      cc.v = if -9841 ≤ sg d + sg v ∧ sg d + sg v ≤ 9841 then 0 else 1

/-- R87: sub; c = 1 exactly when there is no borrow, and v is judged on the exact signed difference (R90, D17; log 7). -/
def Obligations.SubResult : Prop :=
  ∀ (a : Auto) (src dst : Operand) (s s' : State) (v d : Word), SourceIs a src s v s' → DestIs a dst s' d →
    ∃ w cc, exec (.sub a src dst) s = .next (destAfter a dst s' w cc) ∧
      (u w : Int) = ((u d : Int) - (u v : Int)) % (W : Int) ∧ cc.s = sign3 w ∧ cc.c = (if u v ≤ u d then 1 else 0) ∧
      cc.v = if -9841 ≤ sg d - sg v ∧ sg d - sg v ≤ 9841 then 0 else 1

/-- R95, R97: addc, with the carry on entry 0, 1 or 2; adding a 2 literally is the spec's decision (D16; log 7). -/
def Obligations.AddcResult : Prop :=
  ∀ (a : Auto) (rs : RegNum) (dst : Operand) (s : State) (d : Word), DestIs a dst s d →
    ∃ w cc, exec (.addc a rs dst) s = .next (destAfter a dst s w cc) ∧
      u w = (u d + u (s.reg rs) + s.cc.c.val) % W ∧ cc.s = sign3 w ∧
      cc.c.val = (u d + u (s.reg rs) + s.cc.c.val) / W ∧
      cc.v = if -9841 ≤ sg d + sg (s.reg rs) + s.cc.c.val ∧ sg d + sg (s.reg rs) + s.cc.c.val ≤ 9841 then 0 else 1

/-- R96, R97: subb, with the carry on entry 0, 1 or 2; adding a 2 literally is the spec's decision (D16; log 7). -/
def Obligations.SubbResult : Prop :=
  ∀ (a : Auto) (rs : RegNum) (dst : Operand) (s : State) (d : Word), DestIs a dst s d →
    ∃ w cc, exec (.subb a rs dst) s = .next (destAfter a dst s w cc) ∧
      (u w : Int) = ((u d : Int) - (u (s.reg rs) : Int) - (1 - (s.cc.c.val : Int))) % (W : Int) ∧ cc.s = sign3 w ∧
      cc.c.val = (u d + (MAXU - u (s.reg rs)) + s.cc.c.val) / W ∧
      cc.v = if -9841 ≤ sg d - sg (s.reg rs) - 1 + s.cc.c.val ∧ sg d - sg (s.reg rs) - 1 + s.cc.c.val ≤ 9841 then 0 else 1

/-- R100: sl. v says whether the 9-trit result is the exact signed product. -/
def Obligations.SlResult : Prop :=
  ∀ (n : Nat) (dst : Operand) (s : State) (d : Word), 1 ≤ n → n ≤ 9 → DestIs .plain dst s d →
    ∃ w cc, exec (.sl n dst) s = .next (destAfter .plain dst s w cc) ∧
      u w = u d * 3 ^ n % W ∧ cc.s = sign3 w ∧ cc.v = (if sg w = sg d * 3 ^ n then 0 else 1) ∧
      cc.c.val = u d / 3 ^ (9 - n) % 3

/-- R102: sru; the result is never negative. -/
def Obligations.SruResult : Prop :=
  ∀ (n : Nat) (dst : Operand) (s : State) (d : Word), 1 ≤ n → n ≤ 9 → DestIs .plain dst s d →
    ∃ w cc, exec (.sru n dst) s = .next (destAfter .plain dst s w cc) ∧
      u w = u d / 3 ^ n ∧ cc.s = sign3 w ∧ cc.s ≠ 2 ∧ cc.v = (if u d % 3 ^ n = 0 then 0 else 1) ∧
      cc.c.val = u d / 3 ^ (n - 1) % 3

/-- R103, R105: srs is floor division of the signed value. -/
def Obligations.SrsResult : Prop :=
  ∀ (n : Nat) (dst : Operand) (s : State) (d : Word), 1 ≤ n → n ≤ 9 → DestIs .plain dst s d →
    ∃ w cc, exec (.srs n dst) s = .next (destAfter .plain dst s w cc) ∧
      sg w = sg d / 3 ^ n ∧ u w = u d / 3 ^ n + (if u d ≤ 9841 then 0 else W - 3 ^ (9 - n)) ∧ cc.s = sign3 w ∧
      cc.v = (if u d % 3 ^ n = 0 then 0 else 1) ∧ (cc.v = 0 ↔ sg d % 3 ^ n = 0) ∧ cc.c.val = u d / 3 ^ (n - 1) % 3

/-- R72: constant mode. As a source it is the number k; as the destination of move it is ignored, and as the destination of any other
instruction it is the second source; the result is discarded: nothing but cc is written, apart from what the source operand does. The
value for a carry of 2 is not this rule's (`AddcResult`, `SubbResult`). -/
def Obligations.ConstantMode : Prop :=
  ∀ (a : Auto) (src : Operand) (k j rs : RegNum) (n : Nat) (s s' : State) (v : Word),
    SourceIs a src s v s' → 1 ≤ n → n ≤ 9 →
    (∃ t, exec (.move .plain (.const k) (.reg j)) s = .next t ∧ u (t.reg j) = k.val) ∧
    exec (.move a src (.const k)) s = .next (s'.setCC ⟨sign3 v, 0, 0⟩) ∧
    (∃ w cc, exec (.add a src (.const k)) s = .next (s'.setCC cc) ∧ u w = (k.val + u v) % W ∧ cc.s = sign3 w) ∧
    (∃ w cc, exec (.sub a src (.const k)) s = .next (s'.setCC cc) ∧
      (u w : Int) = ((k.val : Int) - (u v : Int)) % (W : Int) ∧ cc.s = sign3 w ∧
      cc.c = (if u v ≤ k.val then 1 else 0)) ∧
    (∃ w cc, exec (.addc a rs (.const k)) s = .next (s.setCC cc) ∧
      (s.cc.c ≠ 2 → u w = (k.val + u (s.reg rs) + s.cc.c.val) % W) ∧ cc.s = sign3 w) ∧
    (∃ w cc, exec (.subb a rs (.const k)) s = .next (s.setCC cc) ∧
      (s.cc.c ≠ 2 → (u w : Int) = ((k.val : Int) - (u (s.reg rs) : Int) - (1 - (s.cc.c.val : Int))) % (W : Int)) ∧
      cc.s = sign3 w) ∧
    (∃ w cc, exec (.sl n (.const k)) s = .next (s.setCC cc) ∧ u w = k.val * 3 ^ n % W ∧ cc.s = sign3 w) ∧
    (∃ w cc, exec (.sru n (.const k)) s = .next (s.setCC cc) ∧ u w = k.val / 3 ^ n ∧ cc.s = sign3 w) ∧
    (∃ w cc, exec (.srs n (.const k)) s = .next (s.setCC cc) ∧ u w = k.val / 3 ^ n ∧ cc.s = sign3 w)

/-- R106: the two-trit count field gives 1 to 8 as written and 9 for 00, and no other count; a shift by 9 moves every trit out, which
leaves 0, or all twos for a negative word shifted right signed. -/
def Obligations.ShiftCount : Prop :=
  (∀ (ir : Word) (n : Nat) (dst : Operand),
    decode ir = .ok (.sl n dst) ∨ decode ir = .ok (.sru n dst) ∨ decode ir = .ok (.srs n dst) →
    n = (if slice ir 4 3 = 0 then 9 else slice ir 4 3) ∧ 1 ≤ n ∧ n ≤ 9) ∧
  ∀ (dst : Operand) (s : State) (d : Word), DestIs .plain dst s d →
    (∃ cc, exec (.sl 9 dst) s = .next (destAfter .plain dst s 0 cc)) ∧
    (∃ cc, exec (.sru 9 dst) s = .next (destAfter .plain dst s 0 cc)) ∧
    (∃ cc, exec (.srs 9 dst) s = .next (destAfter .plain dst s (if u d ≤ 9841 then 0 else 19682) cc))

/-- R110, R112, R113, R122 to R127: the branches on equality, the shown sign and overflow. The operand's side effects happen taken or
not; cc is unchanged. The operand and the target rule are the spec's decisions (D5, D6; logs 1, 7). -/
def Obligations.EqualitySignAndOverflowBranches : Prop :=
  ∀ (a : Auto) (src : Operand) (s s' : State) (v : Word), SourceIs a src s v s' →
    exec (.beq a src) s = .next (if s.cc.s = 0 then s'.setReg 0 v else s') ∧
    exec (.bne a src) s = .next (if s.cc.s ≠ 0 then s'.setReg 0 v else s') ∧
    exec (.bpos a src) s = .next (if s.cc.s = 1 then s'.setReg 0 v else s') ∧
    exec (.bnpos a src) s = .next (if s.cc.s ≠ 1 then s'.setReg 0 v else s') ∧
    exec (.bneg a src) s = .next (if s.cc.s = 2 then s'.setReg 0 v else s') ∧
    exec (.bnneg a src) s = .next (if s.cc.s ≠ 2 then s'.setReg 0 v else s') ∧
    exec (.bvr a src) s = .next (if s.cc.v = 0 then s'.setReg 0 v else s') ∧
    exec (.bvs a src) s = .next (if s.cc.v ≠ 0 then s'.setReg 0 v else s')

/-- R110, R114 to R117: the signed comparison branches, v = 2 included (R129). D5, D6: logs 1, 7. -/
def Obligations.SignedBranches : Prop :=
  ∀ (a : Auto) (src : Operand) (s s' : State) (v : Word), SourceIs a src s v s' →
    exec (.blts a src) s =
      .next (if (s.cc.s = 2 ∧ s.cc.v = 0) ∨ (s.cc.s = 1 ∧ s.cc.v = 1) then s'.setReg 0 v else s') ∧
    exec (.bles a src) s =
      .next (if (s.cc.s = 2 ∧ s.cc.v = 0) ∨ (s.cc.s = 1 ∧ s.cc.v = 1) ∨ s.cc.s = 0 then s'.setReg 0 v else s') ∧
    exec (.bges a src) s =
      .next (if (s.cc.s = 1 ∧ s.cc.v = 0) ∨ (s.cc.s = 2 ∧ s.cc.v = 1) ∨ s.cc.s = 0 then s'.setReg 0 v else s') ∧
    exec (.bgts a src) s =
      .next (if (s.cc.s = 1 ∧ s.cc.v = 0) ∨ (s.cc.s = 2 ∧ s.cc.v = 1) then s'.setReg 0 v else s')

/-- R110, R118 to R121: the unsigned comparison branches. D5, D6: logs 1, 7. -/
def Obligations.UnsignedBranches : Prop :=
  ∀ (a : Auto) (src : Operand) (s s' : State) (v : Word), SourceIs a src s v s' →
    exec (.bltu a src) s = .next (if s.cc.c = 0 then s'.setReg 0 v else s') ∧
    exec (.bleu a src) s = .next (if s.cc.c = 0 ∨ s.cc.s = 0 then s'.setReg 0 v else s') ∧
    exec (.bgeu a src) s = .next (if s.cc.c ≠ 0 then s'.setReg 0 v else s') ∧
    exec (.bgtu a src) s = .next (if s.cc.c ≠ 0 ∧ s.cc.s ≠ 0 then s'.setReg 0 v else s')

/-! Laws of the condition codes. -/

/-- R111: after sub the ten comparison branches report on destination ? source, overflow included. -/
def Obligations.BranchesAfterSubCompare : Prop :=
  ∀ (a : Auto) (src dst : Operand) (s s' t : State) (v d : Word) (r : RegNum),
    SourceIs a src s v s' → DestIs a dst s' d → exec (.sub a src dst) s = .next t →
    exec (.beq .plain (.reg r)) t = .next (if d = v then t.setReg 0 (t.reg r) else t) ∧
    exec (.bne .plain (.reg r)) t = .next (if d ≠ v then t.setReg 0 (t.reg r) else t) ∧
    exec (.blts .plain (.reg r)) t = .next (if sg d < sg v then t.setReg 0 (t.reg r) else t) ∧
    exec (.bles .plain (.reg r)) t = .next (if sg d ≤ sg v then t.setReg 0 (t.reg r) else t) ∧
    exec (.bges .plain (.reg r)) t = .next (if sg v ≤ sg d then t.setReg 0 (t.reg r) else t) ∧
    exec (.bgts .plain (.reg r)) t = .next (if sg v < sg d then t.setReg 0 (t.reg r) else t) ∧
    exec (.bltu .plain (.reg r)) t = .next (if u d < u v then t.setReg 0 (t.reg r) else t) ∧
    exec (.bleu .plain (.reg r)) t = .next (if u d ≤ u v then t.setReg 0 (t.reg r) else t) ∧
    exec (.bgeu .plain (.reg r)) t = .next (if u v ≤ u d then t.setReg 0 (t.reg r) else t) ∧
    exec (.bgtu .plain (.reg r)) t = .next (if u v < u d then t.setReg 0 (t.reg r) else t)

/-- R91, add and sub: on overflow the stored result is not zero and its sign is the opposite of the exact result's. -/
def Obligations.OverflowInvertsSign : Prop :=
  ∀ (a : Auto) (src dst : Operand) (s s' t : State) (v d : Word),
    SourceIs a src s v s' → DestIs a dst s' d → t.cc.v = 1 →
    (exec (.add a src dst) s = .next t →
      t.cc.s ≠ 0 ∧ (t.cc.s = 2 ↔ 0 < sg d + sg v) ∧ (t.cc.s = 1 ↔ sg d + sg v < 0)) ∧
    (exec (.sub a src dst) s = .next t →
      t.cc.s ≠ 0 ∧ (t.cc.s = 2 ↔ 0 < sg d - sg v) ∧ (t.cc.s = 1 ↔ sg d - sg v < 0))

/-- R91, addc: on overflow the sign is inverted except in exactly the four listed cases, with the results and codes listed. -/
def Obligations.AddcOverflowCorners : Prop :=
  ∀ (a : Auto) (rs : RegNum) (dst : Operand) (s t : State) (d : Word),
    DestIs a dst s d → exec (.addc a rs dst) s = .next t → t.cc.v = 1 →
    (¬(t.cc.s ≠ 0 ∧ (t.cc.s = 2 ↔ 0 < sg d + sg (s.reg rs) + s.cc.c.val) ∧
        (t.cc.s = 1 ↔ sg d + sg (s.reg rs) + s.cc.c.val < 0)) ↔
      ((sg d, sg (s.reg rs), s.cc.c) = (9840, 9841, 2) ∨ (sg d, sg (s.reg rs), s.cc.c) = (9841, 9840, 2) ∨
        (sg d, sg (s.reg rs), s.cc.c) = (9841, 9841, 1) ∨ (sg d, sg (s.reg rs), s.cc.c) = (9841, 9841, 2))) ∧
    ((sg d, sg (s.reg rs), s.cc.c) = (9840, 9841, 2) ∨ (sg d, sg (s.reg rs), s.cc.c) = (9841, 9840, 2) ∨
        (sg d, sg (s.reg rs), s.cc.c) = (9841, 9841, 1) → t = destAfter a dst s 0 ⟨0, 1, 1⟩) ∧
    ((sg d, sg (s.reg rs), s.cc.c) = (9841, 9841, 2) → t = destAfter a dst s 1 ⟨1, 1, 1⟩)

/-- R91, subb: on overflow the sign is inverted except in exactly the two listed cases, with the result and codes listed. -/
def Obligations.SubbOverflowCorners : Prop :=
  ∀ (a : Auto) (rs : RegNum) (dst : Operand) (s t : State) (d : Word),
    DestIs a dst s d → exec (.subb a rs dst) s = .next t → t.cc.v = 1 →
    (¬(t.cc.s ≠ 0 ∧ (t.cc.s = 2 ↔ 0 < sg d - sg (s.reg rs) - 1 + s.cc.c.val) ∧
        (t.cc.s = 1 ↔ sg d - sg (s.reg rs) - 1 + s.cc.c.val < 0)) ↔
      ((sg d, sg (s.reg rs), s.cc.c) = (9841, -9841, 2) ∨ (sg d, sg (s.reg rs), s.cc.c) = (-9841, 9841, 0))) ∧
    ((sg d, sg (s.reg rs), s.cc.c) = (9841, -9841, 2) ∨ (sg d, sg (s.reg rs), s.cc.c) = (-9841, 9841, 0) →
      t = destAfter a dst s 0 ⟨0, 1, 1⟩)

/-- R97: the carry out of addc and subb is 2 in exactly one case each, with 2 on entry (D16; log 7). -/
def Obligations.CarryTwoOnlyInOneCorner : Prop :=
  ∀ (a : Auto) (rs : RegNum) (dst : Operand) (s t : State) (d : Word), DestIs a dst s d →
    (exec (.addc a rs dst) s = .next t →
      (t.cc.c = 2 ↔ s.cc.c = 2 ∧ u d = 19682 ∧ u (s.reg rs) = 19682)) ∧
    (exec (.subb a rs dst) s = .next t → (t.cc.c = 2 ↔ s.cc.c = 2 ∧ u d = 19682 ∧ u (s.reg rs) = 0))

/-- R20, R27: every step either leaves cc alone or writes 0 or 1 to v. -/
def Obligations.OverflowTritWrittenAsBit : Prop :=
  ∀ s t : State, step s = .next t → t.cc = s.cc ∨ t.cc.v = 0 ∨ t.cc.v = 1

/-- R101: the seven constant shifts load the seven condition code values the source prints, and store nothing. -/
def Obligations.ShiftsOfConstantsLoadCC : Prop :=
  ∀ s : State,
    exec (.sl 9 (.const 0)) s = .next (s.setCC ⟨0, 0, 0⟩) ∧
    exec (.sl 9 (.const 1)) s = .next (s.setCC ⟨0, 1, 1⟩) ∧
    exec (.sl 9 (.const 2)) s = .next (s.setCC ⟨0, 1, 2⟩) ∧
    exec (.sl 8 (.const 1)) s = .next (s.setCC ⟨1, 0, 0⟩) ∧
    exec (.sl 8 (.const 2)) s = .next (s.setCC ⟨2, 1, 0⟩) ∧
    exec (.sl 8 (.const 4)) s = .next (s.setCC ⟨1, 1, 1⟩) ∧
    exec (.sl 8 (.const 5)) s = .next (s.setCC ⟨2, 1, 1⟩)

/-! Frames. -/

/-- Frame of move, add and sub: registers other than those the operands name as written, the memory map, and every word of memory
but the one at the destination's address, computed on the state after the source phase (R35, R71, R77). -/
def Obligations.FrameOfMoveAddSub : Prop :=
  ∀ (i : Instr) (a : Auto) (src dst : Operand) (s t : State),
    i = .move a src dst ∨ i = .add a src dst ∨ i = .sub a src dst → exec i s = .next t →
    (∀ r, r ∉ autoRegs a src → r ∉ dstRegs a dst → t.reg r = s.reg r) ∧ t.unpopulated = s.unpopulated ∧
    ∃ v s', srcVal a src s = .ok (v, s') ∧
      match (dstLocate a dst s').1 with
      | .discard _ => ∀ x, t.word x = s.word x
      | .reg _ => ∀ x, t.word x = s.word x
      | .mem ea _ => ∀ x, x ≠ ea → t.word x = s.word x

/-- Frame of addc, subb (a any) and of sl, sru, srs (a plain): as for add, with no source phase (R99, R104). -/
def Obligations.FrameOfCarryAndShift : Prop :=
  ∀ (i : Instr) (a : Auto) (dst : Operand) (s t : State),
    ((∃ rs, i = .addc a rs dst ∨ i = .subb a rs dst) ∨
      a = .plain ∧ ∃ n, i = .sl n dst ∨ i = .sru n dst ∨ i = .srs n dst) →
    exec i s = .next t →
    (∀ r, r ∉ dstRegs a dst → t.reg r = s.reg r) ∧ t.unpopulated = s.unpopulated ∧
    match (dstLocate a dst s).1 with
    | .discard _ => ∀ x, t.word x = s.word x
    | .reg _ => ∀ x, t.word x = s.word x
    | .mem ea _ => ∀ x, x ≠ ea → t.word x = s.word x

/-- Frame of the sixteen branches: cc, memory, the memory map and every register but pc and the auto-modified one (R110, R128). That
branches leave cc alone is the spec's decision (D6; log 7). -/
def Obligations.FrameOfBranches : Prop :=
  ∀ (i : Instr) (a : Auto) (src : Operand) (s t : State), branchParts i = some (a, src) → exec i s = .next t →
    t.cc = s.cc ∧ t.unpopulated = s.unpopulated ∧ (∀ x, t.word x = s.word x) ∧
    ∀ r, r ≠ 0 → r ∉ autoRegs a src → t.reg r = s.reg r

/-- R31, R35: an instruction changes no word of memory but those its accesses write. -/
def Obligations.OnlyWrittenWordsChange : Prop :=
  ∀ (i : Instr) (s t : State) (x : Word), exec i s = .next t → Access.write x ∉ accesses i s → t.word x = s.word x

/-- R31, R35: what an instruction does (registers, cc, the words it writes) and how it stops depends on no word of memory but those its
accesses read. -/
def Obligations.OnlyReadWordsMatter : Prop :=
  ∀ (i : Instr) (s : State) (m : Memory),
    (∀ x, Access.read x ∈ accesses i s → m.lookup (u x) = s.mem.lookup (u x)) →
    match exec i s, exec i { s with mem := m } with
    | .next t, .next t' =>
      t'.regs = t.regs ∧ t'.cc = t.cc ∧ t'.unpopulated = t.unpopulated ∧
        ∀ x, Access.write x ∈ accesses i s → t'.word x = t.word x
    | .fault f, .fault f' => f' = f
    | .refused r, .refused r' => r' = r
    | _, _ => False

/-- R35: the accesses of a step and their order, for every instruction and operand form: the fetch, then the source read, then the
destination read (not for move, D18; log 7) and the write to the same address. A constant or a register gives no access. -/
def Obligations.AccessesInOrder : Prop :=
  (∀ (s : State) (ir : Word) (i : Instr), s.populated s.pc = true → s.word s.pc = some ir → decode ir = .ok i →
    stepAccesses s = .read s.pc :: accesses i (s.setReg 0 (inc s.pc))) ∧
  (∀ (a : Auto) (src dst : Operand) (s s' : State) (v : Word), SourceIs a src s v s' →
    accesses (.move a src dst) s = readOf a src s ++ writeOf a dst s' ∧
    accesses (.add a src dst) s = readOf a src s ++ readOf a dst s' ++ writeOf a dst s' ∧
    accesses (.sub a src dst) s = readOf a src s ++ readOf a dst s' ++ writeOf a dst s') ∧
  (∀ (a : Auto) (rs : RegNum) (dst : Operand) (s : State),
    accesses (.addc a rs dst) s = readOf a dst s ++ writeOf a dst s ∧
    accesses (.subb a rs dst) s = readOf a dst s ++ writeOf a dst s) ∧
  (∀ (n : Nat) (dst : Operand) (s : State),
    accesses (.sl n dst) s = readOf .plain dst s ++ writeOf .plain dst s ∧
    accesses (.sru n dst) s = readOf .plain dst s ++ writeOf .plain dst s ∧
    accesses (.srs n dst) s = readOf .plain dst s ++ writeOf .plain dst s) ∧
  (∀ (i : Instr) (a : Auto) (src : Operand) (s : State), branchParts i = some (a, src) → accesses i s = readOf a src s)

/-! One register in two roles, pc and the stack (40_operands.md R78 to R83, 41_move_add_sub.md R92). -/

/-- R78: one register as the pointer of both fields; the addresses wrap as inc and dec do (D2; log 7), and that both decrements come
before their use is the spec's resolution (90_conflicts.md C3). -/
def Obligations.SamePointerInBothFields : Prop :=
  ∀ (mk : Auto → Operand → Operand → Instr) (r : RegNum) (s : State),
    mk = .move ∨ mk = .add ∨ mk = .sub →
    (∀ t, exec (mk .plain (.mem r) (.mem r)) s = .next t →
      (accesses (mk .plain (.mem r) (.mem r)) s).head? = some (.read (s.reg r)) ∧
      (∀ x, .write x ∈ accesses (mk .plain (.mem r) (.mem r)) s ↔ x = s.reg r) ∧ t.reg r = s.reg r) ∧
    (∀ t, exec (mk .inc (.mem r) (.mem r)) s = .next t →
      (accesses (mk .inc (.mem r) (.mem r)) s).head? = some (.read (s.reg r)) ∧
      (∀ x, .write x ∈ accesses (mk .inc (.mem r) (.mem r)) s ↔ x = inc (s.reg r)) ∧
      t.reg r = inc (inc (s.reg r))) ∧
    (∀ t, exec (mk .dec (.mem r) (.mem r)) s = .next t →
      (accesses (mk .dec (.mem r) (.mem r)) s).head? = some (.read (dec (s.reg r))) ∧
      (∀ x, .write x ∈ accesses (mk .dec (.mem r) (.mem r)) s ↔ x = dec (dec (s.reg r))) ∧
      t.reg r = dec (dec (s.reg r)))

/-- R83: a register that is both auto-modified and written or read as a value, row by row; it rests on the phase order, the
spec's decision (D3; log 7). -/
def Obligations.AutoModifiedAndWrittenRegister : Prop :=
  ∀ (r : RegNum) (s : State) (x : Word),
    (s.populated (s.reg r) = true → s.word (s.reg r) = some x →
      (∃ t, exec (.move .inc (.mem r) (.reg r)) s = .next t ∧ t.reg r = x) ∧
      (∃ t, exec (.add .inc (.mem r) (.reg r)) s = .next t ∧ u (t.reg r) = (u (s.reg r) + 1 + u x) % W)) ∧
    (s.populated (s.reg r) = true →
      ∃ t, exec (.move .inc (.reg r) (.mem r)) s = .next t ∧ t.word (s.reg r) = some (s.reg r) ∧
        t.reg r = inc (s.reg r)) ∧
    (s.populated (dec (s.reg r)) = true →
      ∃ t, exec (.move .dec (.reg r) (.mem r)) s = .next t ∧ t.word (dec (s.reg r)) = some (s.reg r) ∧
        t.reg r = dec (s.reg r)) ∧
    (s.populated (dec (s.reg r)) = true → s.word (dec (s.reg r)) = some x →
      ∃ t, exec (.add .dec (.mem r) (.reg r)) s = .next t ∧
        (u (t.reg r) : Int) = ((u (s.reg r) : Int) - 1 + u x) % (W : Int)) ∧
    (s.populated (dec s.sp) = true → s.word (dec s.sp) = some x →
      ∃ t, exec (.move .dec (.mem 8) (.reg 0)) s = .next t ∧ t.sp = dec s.sp ∧ t.pc = x)

/-- R79: pc as an operand of an instruction at address `addr`, whose fetch has left pc at the next word. The unusual forms
follow the general rules (D3, D21; log 7). -/
def Obligations.PcAsOperand : Prop :=
  ∀ (s : State) (addr x : Word) (r k : RegNum), s.pc = inc addr → r ≠ 0 →
    (∃ t, exec (.move .plain (.reg 0) (.reg r)) s = .next t ∧ t.reg r = inc addr) ∧
    (s.populated (inc addr) = true → s.word (inc addr) = some x →
      (∃ t, exec (.move .inc (.mem 0) (.reg r)) s = .next t ∧ t.reg r = x ∧ t.pc = inc (inc addr)) ∧
      (∃ t, exec (.move .plain (.mem 0) (.reg r)) s = .next t ∧ t.reg r = x ∧ t.pc = inc addr) ∧
      (∃ t, exec (.add .inc (.mem 0) (.reg 0)) s = .next t ∧ u t.pc = (u addr + 2 + u x) % W)) ∧
    (s.populated addr = true → s.word addr = some x →
      ∃ t, exec (.move .dec (.mem 0) (.reg r)) s = .next t ∧ t.reg r = x ∧ t.pc = addr) ∧
    (∃ t, exec (.add .plain (.const k) (.reg 0)) s = .next t ∧ u t.pc = (u addr + 1 + k.val) % W)

/-- R92: the jump forms of move, add and sub, for an instruction at `addr`; each sets cc. A displacement after an
immediate counts from `addr` + 2 (90_conflicts.md C4, D3; log 7). -/
def Obligations.JumpForms : Prop :=
  ∀ (s : State) (addr x : Word) (r k : RegNum), s.pc = inc addr →
    (∃ t, exec (.move .plain (.reg r) (.reg 0)) s = .next t ∧ t.pc = s.reg r ∧ t.cc = ⟨sign3 (s.reg r), 0, 0⟩) ∧
    (s.populated (s.reg r) = true → s.word (s.reg r) = some x →
      ∃ t, exec (.move .plain (.mem r) (.reg 0)) s = .next t ∧ t.pc = x ∧ t.cc = ⟨sign3 x, 0, 0⟩) ∧
    (s.populated (inc addr) = true → s.word (inc addr) = some x →
      (∃ t, exec (.move .inc (.mem 0) (.reg 0)) s = .next t ∧ t.pc = x ∧ t.cc = ⟨sign3 x, 0, 0⟩) ∧
      (∃ t, exec (.add .inc (.mem 0) (.reg 0)) s = .next t ∧ u t.pc = (u addr + 2 + u x) % W ∧ t.cc.s = sign3 t.pc) ∧
      (s.populated s.sp = true →
        ∃ t, exec (.move .inc (.mem 0) (.mem 8)) s = .next t ∧ t.word s.sp = some x ∧ t.sp = inc s.sp ∧
          t.pc = inc (inc addr))) ∧
    (∃ t, exec (.add .plain (.const k) (.reg 0)) s = .next t ∧ u t.pc = (u addr + 1 + k.val) % W ∧
      t.cc.s = sign3 t.pc) ∧
    (∃ t, exec (.sub .plain (.const k) (.reg 0)) s = .next t ∧
      (u t.pc : Int) = ((u addr : Int) + 1 - k.val) % (W : Int) ∧ t.cc.s = sign3 t.pc) ∧
    (s.populated (dec s.sp) = true → s.word (dec s.sp) = some x →
      ∃ t, exec (.move .dec (.mem 8) (.reg 0)) s = .next t ∧ t.sp = dec s.sp ∧ t.pc = x)

/-- R81: a push and then a pop through the same pointer, on an upward-growing and on a downward-growing stack. -/
def Obligations.PushThenPop : Prop :=
  ∀ (s : State) (p r q : RegNum),
    (s.populated (s.reg p) = true →
      ∃ t t', exec (.move .inc (.reg r) (.mem p)) s = .next t ∧ t.reg p = inc (s.reg p) ∧
        t.word (s.reg p) = some (s.reg r) ∧
        exec (.move .dec (.mem p) (.reg q)) t = .next t' ∧ t'.reg q = s.reg r ∧ (q ≠ p → t'.reg p = s.reg p)) ∧
    (s.populated (dec (s.reg p)) = true →
      ∃ t t', exec (.move .dec (.reg r) (.mem p)) s = .next t ∧ t.reg p = dec (s.reg p) ∧
        t.word (dec (s.reg p)) = some (s.reg r) ∧
        exec (.move .inc (.mem p) (.reg q)) t = .next t' ∧ t'.reg q = s.reg r ∧ (q ≠ p → t'.reg p = s.reg p))

/-- R149: a branch whose operand is pc in register mode changes nothing, taken or not (Format B: D5; log 1). -/
def Obligations.BranchToPcIsNoOp : Prop :=
  ∀ (i : Instr) (s : State), branchParts i = some (.plain, .reg 0) → exec i s = .next s

/-- R92, R149: the one-word loop `sub =1,pc` leaves pc where it was, and memory and the other registers alone. -/
def Obligations.OneWordLoop : Prop :=
  ∀ s : State, s.populated s.pc = true → s.word s.pc = some 4410 →
    ∃ t, step s = .next t ∧ t.pc = s.pc ∧ t.mem = s.mem ∧ ∀ r, r ≠ 0 → t.reg r = s.reg r

/-- R41, R80: a store through `*pc` is what the next fetch reads (a = 0), or is stepped over (a = 1): the
spec's decisions D14, D21 (log 7). -/
def Obligations.StoreThroughPcIsFetched : Prop :=
  ∀ (src : Operand) (s s' : State) (v : Word), s'.populated s'.pc = true →
    (SourceIs .plain src s v s' →
      ∃ t, exec (.move .plain src (.mem 0)) s = .next t ∧ fetch t = .ok (v, t.setReg 0 (inc s'.pc))) ∧
    (SourceIs .inc src s v s' →
      ∃ t, exec (.move .inc src (.mem 0)) s = .next t ∧ t.word s'.pc = some v ∧ t.pc = inc s'.pc)

/-! Multi-word arithmetic (42_carry.md R98). -/

/-- R98: add then addc adds two 18-trit numbers, the carry out being the carry of the whole. -/
def Obligations.DoubleWordAdd : Prop :=
  ∀ (s : State) (lo hi lo' hi' : RegNum), lo' ≠ hi' → lo' ≠ hi →
    ∃ t t', exec (.add .plain (.reg lo) (.reg lo')) s = .next t ∧ exec (.addc .plain hi (.reg hi')) t = .next t' ∧
      u (t'.reg lo') + W * u (t'.reg hi') + W * W * t'.cc.c.val =
        (u (s.reg lo) + W * u (s.reg hi)) + (u (s.reg lo') + W * u (s.reg hi'))

/-- R98: sub then subb subtracts two 18-trit numbers, c = 0 being the borrow of the whole. -/
def Obligations.DoubleWordSub : Prop :=
  ∀ (s : State) (lo hi lo' hi' : RegNum), lo' ≠ hi' → lo' ≠ hi →
    ∃ t t', exec (.sub .plain (.reg lo) (.reg lo')) s = .next t ∧ exec (.subb .plain hi (.reg hi')) t = .next t' ∧
      ((u (t'.reg lo') + W * u (t'.reg hi') : Nat) : Int) =
        ((u (s.reg lo') + W * u (s.reg hi') : Nat) : Int) - ((u (s.reg lo) + W * u (s.reg hi) : Nat) : Int) +
          (W : Int) * (W : Int) * (1 - (t'.cc.c.val : Int))

/-! Faults (60_exceptions.md). -/

/-- R143, with the fault on a read of a word that nothing has written, which is the model's (log 4): the only reasons a step stops. -/
def Obligations.FaultsOfAStep : Prop :=
  ∀ (s : State) (f : Fault), step s = .fault f →
    (∃ ir r, f = .reservedInstruction ir s.pc ∧ s.word s.pc = some ir ∧ decode ir = .error r) ∨
    (∃ x, f = .busError x ∧ s.populated x = false) ∨
    (∃ x, f = .unwrittenMemory x ∧ s.populated x = true ∧ s.word x = none)

/-- R142: with the full map no access faults as a bus error. -/
def Obligations.NoBusErrorWithFullMap : Prop :=
  ∀ (s : State) (x : Word), s.unpopulated = [] → step s ≠ .fault (.busError x)

/-- R147, R141: the first of the two faults in phase order stops the machine (D8; log 7). -/
def Obligations.FaultPriority : Prop :=
  (∀ s : State, s.populated s.pc = false → step s = .fault (.busError s.pc)) ∧
  (∀ (s : State) (ir : Word) (r : Reserved), s.populated s.pc = true → s.word s.pc = some ir → decode ir = .error r →
    step s = .fault (.reservedInstruction ir s.pc)) ∧
  (∀ (i : Instr) (a : Auto) (r : RegNum) (dst : Operand) (s : State), s.populated (operandAddr a r s) = false →
    i = .move a (.mem r) dst ∨ i = .add a (.mem r) dst ∨ i = .sub a (.mem r) dst ∨ branchParts i = some (a, .mem r) →
    exec i s = .fault (.busError (operandAddr a r s))) ∧
  (∀ (i : Instr) (a : Auto) (src : Operand) (r : RegNum) (s s' : State) (v : Word), SourceIs a src s v s' →
    s'.populated (operandAddr a r s') = false →
    i = .move a src (.mem r) ∨ i = .add a src (.mem r) ∨ i = .sub a src (.mem r) →
    exec i s = .fault (.busError (operandAddr a r s'))) ∧
  (∀ (i : Instr) (a : Auto) (r : RegNum) (s : State), s.populated (operandAddr a r s) = false →
    ((∃ rs, i = .addc a rs (.mem r) ∨ i = .subb a rs (.mem r)) ∨
      a = .plain ∧ ∃ n, i = .sl n (.mem r) ∨ i = .sru n (.mem r) ∨ i = .srs n (.mem r)) →
    exec i s = .fault (.busError (operandAddr a r s)))

/-- The model's choice for a word that nothing has written (log 4; R161, D22 give a fault as one way to hold it): a read of it stops
the machine, in the fetch, in the source and in the destination. -/
def Obligations.UnwrittenWordStops : Prop :=
  (∀ s : State, s.populated s.pc = true → s.word s.pc = none → step s = .fault (.unwrittenMemory s.pc)) ∧
  (∀ (i : Instr) (a : Auto) (r : RegNum) (dst : Operand) (s : State),
    s.populated (operandAddr a r s) = true → s.word (operandAddr a r s) = none →
    i = .move a (.mem r) dst ∨ i = .add a (.mem r) dst ∨ i = .sub a (.mem r) dst ∨ branchParts i = some (a, .mem r) →
    exec i s = .fault (.unwrittenMemory (operandAddr a r s))) ∧
  (∀ (i : Instr) (a : Auto) (src : Operand) (r : RegNum) (s s' : State) (v : Word), SourceIs a src s v s' →
    s'.populated (operandAddr a r s') = true → s'.word (operandAddr a r s') = none →
    i = .add a src (.mem r) ∨ i = .sub a src (.mem r) →
    exec i s = .fault (.unwrittenMemory (operandAddr a r s'))) ∧
  (∀ (i : Instr) (a : Auto) (r : RegNum) (s : State),
    s.populated (operandAddr a r s) = true → s.word (operandAddr a r s) = none →
    ((∃ rs, i = .addc a rs (.mem r) ∨ i = .subb a rs (.mem r)) ∨
      a = .plain ∧ ∃ n, i = .sl n (.mem r) ∨ i = .sru n (.mem r) ∨ i = .srs n (.mem r)) →
    exec i s = .fault (.unwrittenMemory (operandAddr a r s)))

/-- R143, R148: with the full map, and every word of memory written, every instruction completes. -/
def Obligations.EveryInstructionCompletes : Prop :=
  ∀ (i : Instr) (s : State), s.unpopulated = [] → (∀ x, s.word x ≠ none) → ∃ t, exec i s = .next t

/-- R143, R148: no step is refused; it completes or stops with a fault. -/
def Obligations.StepIsNeverRefused : Prop :=
  ∀ (s : State) (r : Refusal), step s ≠ .refused r

/-! Invariants, launch and runs. -/

/-- Every step keeps the invariant: memory in canonical form, nothing held at an unpopulated address (R30, R36, R142). -/
def Obligations.StepKeepsInv : Prop :=
  ∀ s t : State, Inv s → step s = .next t → Inv t

/-- Every step keeps the memory map (R36: an argument of the model; log 6). -/
def Obligations.StepKeepsMemoryMap : Prop :=
  ∀ s t : State, step s = .next t → t.unpopulated = s.unpopulated

/-- The invariant holds at reset. -/
def Obligations.ResetMeetsInv : Prop := Inv State.reset

/-- The invariant holds in every launch state, whatever the host supplies (R160, R163; log 6). -/
def Obligations.LaunchMeetsInv : Prop :=
  ∀ (pc : Word) (image : List (Word × Word)) (regs : Vector Word 9) (cc : CC) (holes : List Word),
    Inv (State.launch pc image regs cc holes)

/-- R160: the launch state has pc = RESET_PC, the image in memory (the last word given for an address, at the populated ones), and
every other piece of state as drawn or supplied. -/
def Obligations.LaunchState : Prop :=
  ∀ (pc : Word) (image : List (Word × Word)) (regs : Vector Word 9) (cc : CC) (holes : List Word),
    (State.launch pc image regs cc holes).pc = pc ∧
    (∀ r : RegNum, r ≠ 0 → (State.launch pc image regs cc holes).reg r = regs[r]) ∧
    (State.launch pc image regs cc holes).cc = cc ∧
    (∀ x, x ∉ holes →
      (State.launch pc image regs cc holes).word x = (image.reverse.find? fun c => c.1 == x).map fun c => c.2)

/-- What reset leaves: the model's choices for the spec's OPEN arguments (log 2: pc = 0; log 4: no word written; log 6: full map). -/
def Obligations.ResetState : Prop :=
  State.reset.pc = 0 ∧ (∀ x, State.reset.word x = none) ∧ (∀ x, State.reset.populated x = true) ∧
    step State.reset = .fault (.unwrittenMemory 0)

/-- R164: a run that is over stands at END_PC, and a state at END_PC is the end of the run, without a fetch (D15; log 10). -/
def Obligations.RunEndsAtEndPc : Prop :=
  ∀ (e : Word) (s t : State), (Ends e s t → t.pc = e) ∧ (s.pc = e → ∀ k, runTo e k s = .ended s)

/-- R167: there is one run from a launch state, so at most one end state; and a run that faults has none. -/
def Obligations.OneEndState : Prop :=
  ∀ (e : Word) (s t t' : State), Ends e s t →
    (Ends e s t' → t = t') ∧ ∀ k f, runTo e k s ≠ .faulted f

/-! Readings of a word (00_scope.md R6, 10_state.md R11 to R13). -/

/-- R12: the four anchors, and the signed value is the one congruent to u(w) in -9841..+9841. -/
def Obligations.SignedReading : Prop :=
  sg 9842 = -9841 ∧ sg 19682 = -1 ∧ sg 0 = 0 ∧ sg 9841 = 9841 ∧
  ∀ w : Word, sg w = (if u w ≤ 9841 then (u w : Int) else (u w : Int) - 19683) ∧ -9841 ≤ sg w ∧ sg w ≤ 9841 ∧
    (sign3 w = 0 ↔ sg w = 0) ∧ (sign3 w = 1 ↔ 0 < sg w) ∧ (sign3 w = 2 ↔ sg w < 0)

/-- R11: u(w) is the sum of trit i times 3^i; 000000000 is 0, 222222222 is 19,682, and the range is 0..19,682. -/
def Obligations.UnsignedReadingIsTritSum : Prop :=
  ∀ w : Word, u w = ((List.range 9).map fun i => (trit w i).val * 3 ^ i).sum ∧ u w ≤ 19682 ∧
    ((∀ i, i < 9 → trit w i = 0) → u w = 0) ∧ ((∀ i, i < 9 → trit w i = 2) → u w = 19682)

/-- R13: the balanced numeral has the signed value. -/
def Obligations.BalancedReadingIsSignedValue : Prop :=
  ∀ w : Word, balancedValue w = sg w

/-! The assembler (30_encoding.md R65). -/

/-- R65: a source constant outside 0..8 assembles as src `*pc` with a = 1 and a word holding its value exactly where a = 1 changes nothing
else: with suffix `+`, or with no suffix and a destination that is not in memory mode; elsewhere it is refused. For move, add and sub,
for the sixteen branches (which have no destination), and never for the carry group, the shifts or a destination field. The upper
bound is the model's (log 12). -/
def Obligations.OutOfRangeConstantIsImmediate : Prop :=
  ∀ (env : Asm.Env) (dot : Word) (e : Asm.Expr) (n : Int) (a : Auto),
    Asm.Expr.eval env dot e = .ok n → n < 0 ∨ 8 < n → n ≤ 19682 →
    (∀ (name : List Char) (mk : Auto → Operand → Operand → Instr) (d : Asm.Written) (dst : Operand),
      (name = ['m', 'o', 'v', 'e'] ∧ mk = .move) ∨ (name = ['a', 'd', 'd'] ∧ mk = .add) ∨
        (name = ['s', 'u', 'b'] ∧ mk = .sub) →
      Asm.destination env dot d = .ok dst →
      Asm.emitOp env dot name a [.const e, d] =
        if a = .inc ∨ (a = .plain ∧ dst.isMem = false) then .ok [encode (mk .inc (.mem 0) dst), Word.ofInt n]
        else .error .immediateImpossible) ∧
    (∀ (k : Nat) (name : List Char) (mk : Auto → Operand → Instr),
      Asm.branchNames[k]? = some name → branchOf k = some mk →
      Asm.emitOp env dot name a [.const e] =
        if a = .dec then .error .immediateImpossible else .ok [encode (mk .inc (.mem 0)), Word.ofInt n]) ∧
    (∀ (name : List Char) (d : Asm.Written),
      name = ['a', 'd', 'd', 'c'] ∨ name = ['s', 'u', 'b', 'b'] ∨ name = ['s', 'l'] ∨ name = ['s', 'r', 'u'] ∨
        name = ['s', 'r', 's'] →
      Asm.emitOp env dot name a [.const e, d] = .error .badOperands) ∧
    (∀ (name : List Char) (w : Asm.Written) (ws : List Word), Asm.emitOp env dot name a [w, .const e] ≠ .ok ws)
end

