-- ==== Sys2Proof/Laws/State.lean ====
section
/-! SUPPORT. One lemma per field per update of the state, so that no proof unfolds a record update. -/

namespace Sys2Proof.Machine

@[simp] theorem State.setReg_cc (s : State) (i : RegNum) (v : Word) : (s.setReg i v).cc = s.cc := rfl

@[simp] theorem State.setReg_mem (s : State) (i : RegNum) (v : Word) : (s.setReg i v).mem = s.mem := rfl

@[simp] theorem State.setReg_unpopulated (s : State) (i : RegNum) (v : Word) :
    (s.setReg i v).unpopulated = s.unpopulated := rfl

@[simp] theorem State.setReg_word (s : State) (i : RegNum) (v a : Word) : (s.setReg i v).word a = s.word a := rfl

@[simp] theorem State.setReg_populated (s : State) (i : RegNum) (v a : Word) :
    (s.setReg i v).populated a = s.populated a := rfl

@[simp] theorem State.setCC_cc (s : State) (cc : CC) : (s.setCC cc).cc = cc := rfl

@[simp] theorem State.setCC_regs (s : State) (cc : CC) : (s.setCC cc).regs = s.regs := rfl

@[simp] theorem State.setCC_mem (s : State) (cc : CC) : (s.setCC cc).mem = s.mem := rfl

@[simp] theorem State.setCC_unpopulated (s : State) (cc : CC) : (s.setCC cc).unpopulated = s.unpopulated := rfl

@[simp] theorem State.setCC_reg (s : State) (cc : CC) (i : RegNum) : (s.setCC cc).reg i = s.reg i := rfl

@[simp] theorem State.setCC_word (s : State) (cc : CC) (a : Word) : (s.setCC cc).word a = s.word a := rfl

@[simp] theorem State.setCC_populated (s : State) (cc : CC) (a : Word) : (s.setCC cc).populated a = s.populated a := rfl

theorem State.setCC_setReg (s : State) (i : RegNum) (v : Word) (cc : CC) :
    (s.setReg i v).setCC cc = (s.setCC cc).setReg i v := rfl

/-- A register reads back the last value written to it (R15). -/
@[simp] theorem State.reg_setReg_same (s : State) (i : RegNum) (v : Word) : (s.setReg i v).reg i = v := by
  simp [State.reg, State.setReg]

/-- Writing one register leaves the others (R15). -/
theorem State.reg_setReg_ne (s : State) {i j : RegNum} (v : Word) (h : j ≠ i) : (s.setReg i v).reg j = s.reg j := by
  have h' : i.val ≠ j.val := fun e => h (Fin.ext e.symm)
  simp [State.reg, State.setReg, h']

/-- Both cases of reading a register after a write. -/
theorem State.reg_setReg (s : State) (i j : RegNum) (v : Word) :
    (s.setReg i v).reg j = if j = i then v else s.reg j := by
  split
  · next h => rw [h, State.reg_setReg_same]
  · next h => exact State.reg_setReg_ne s v h

/-- Writing a register's own value changes nothing. -/
@[simp] theorem State.setReg_self (s : State) (i : RegNum) : s.setReg i (s.reg i) = s := by
  cases s
  simp [State.reg, State.setReg]

/-- The later write to a register is the one that stays. -/
@[simp] theorem State.setReg_setReg (s : State) (i : RegNum) (v w : Word) : (s.setReg i v).setReg i w = s.setReg i w := by
  simp [State.setReg]

end Sys2Proof.Machine
end

