-- ==== Sys2Proof/Laws/Memory.lean ====
section
/-! SUPPORT. Memory: a read gives what the last write to the address stored, a write leaves the other addresses, and every operation
keeps the canonical form (20_memory.md R30, R38). -/

namespace Sys2Proof.Machine

/-- A read after a write to the same address. -/
@[simp] theorem Memory.lookup_store_same (m : Memory) (a : Nat) (v : Word) : (m.store a v).lookup a = some v := by
  induction m with
  | nil => simp [Memory.store, Memory.lookup]
  | cons c m ih =>
    obtain ⟨b, w⟩ := c
    unfold Memory.store
    split
    · simp [Memory.lookup]
    · split
      · simp [Memory.lookup]
      · next h => simp [Memory.lookup, h, ih]

/-- A read after a write to another address. -/
theorem Memory.lookup_store_ne (m : Memory) {a b : Nat} (v : Word) (h : b ≠ a) :
    (m.store a v).lookup b = m.lookup b := by
  induction m with
  | nil => simp [Memory.store, Memory.lookup, h]
  | cons c m ih =>
    obtain ⟨x, w⟩ := c
    unfold Memory.store
    split
    · rw [Memory.lookup, if_neg h]
    · split
      · next e => subst e; simp [Memory.lookup, h]
      · simp [Memory.lookup, ih]

/-- The canonical form, unfolded once. -/
theorem Memory.wf_cons (a : Nat) (v : Word) (m : Memory) :
    Memory.wf ((a, v) :: m) = true ↔ a < W ∧ (∀ c ∈ m.head?, a < c.1) ∧ Memory.wf m = true := by
  induction m generalizing a v with
  | nil => simp [Memory.wf]
  | cons c m ih =>
    obtain ⟨b, w⟩ := c
    have hb := ih b w
    simp only [Memory.wf, Bool.and_eq_true, decide_eq_true_eq, List.head?_cons, Option.mem_def, Option.some.injEq,
      forall_eq']
    constructor
    · rintro ⟨hab, hw⟩
      exact ⟨by have := (hb.1 hw).1; omega, hab, hw⟩
    · rintro ⟨-, hab, hw⟩
      exact ⟨hab, hw⟩

/-- The head of memory after a write is the written address or the old head, whichever is lower. -/
theorem Memory.head_store (m : Memory) (a : Nat) (v : Word) {k : Nat} (ha : k < a) (hm : ∀ c ∈ m.head?, k < c.1) :
    ∀ c ∈ (m.store a v).head?, k < c.1 := by
  cases m with
  | nil => simpa [Memory.store] using ha
  | cons c m =>
    obtain ⟨b, w⟩ := c
    unfold Memory.store
    split
    · simpa using ha
    · split
      · simpa using ha
      · simpa using hm

/-- A write to an address below `W` keeps the canonical form. -/
theorem Memory.wf_store (m : Memory) (a : Nat) (v : Word) (ha : a < W) (hm : Memory.wf m = true) :
    Memory.wf (m.store a v) = true := by
  induction m with
  | nil => simpa [Memory.store, Memory.wf] using ha
  | cons c m ih =>
    obtain ⟨b, w⟩ := c
    have hc := (Memory.wf_cons b w m).1 hm
    unfold Memory.store
    split
    · next h => exact (Memory.wf_cons a v _).2 ⟨ha, by simpa using h, hm⟩
    · split
      · next h => subst h; exact (Memory.wf_cons a v m).2 hc
      · next h h' =>
        exact (Memory.wf_cons b w _).2 ⟨hc.1, Memory.head_store m a v (by omega) hc.2.1, ih hc.2.2⟩

/-- The loaded image is in canonical form. -/
theorem Memory.wf_load (image : List (Word × Word)) : Memory.wf (Memory.load image) = true := by
  have h : ∀ (l : List (Word × Word)) (m : Memory), Memory.wf m = true →
      Memory.wf (l.foldl (fun m cell => m.store (u cell.1) cell.2) m) = true := by
    intro l
    induction l with
    | nil => exact fun m hm => hm
    | cons c l ih => exact fun m hm => ih _ (Memory.wf_store m _ _ c.1.isLt hm)
  exact h image [] rfl

/-- `State.reset`'s memory is in canonical form. -/
theorem State.reset_mem_wf : Memory.wf State.reset.mem = true := rfl

/-- What `withFetchWord` places keeps the canonical form. -/
theorem State.withFetchWord_wf (s : State) (nbits w : Nat) (h : Memory.wf s.mem = true) :
    Memory.wf (s.withFetchWord nbits w).mem = true := by
  unfold State.withFetchWord
  split
  · exact Memory.wf_store _ _ _ (inc (inc s.pc)).isLt
      (Memory.wf_store _ _ _ (inc s.pc).isLt (Memory.wf_store _ _ _ s.pc.isLt h))
  · exact h

/-- Everything `memRead` can do (R7, R142, D22). -/
theorem memRead_ok_iff (s : State) (a v : Word) :
    memRead s a = .ok v ↔ s.populated a = true ∧ s.word a = some v := by
  unfold memRead
  split
  · next h => cases e : s.word a <;> simp [h]
  · next h => simp [h]

/-- Everything `memRead` can fail with (R142, D22). -/
theorem memRead_error_iff (s : State) (a : Word) (f : Fault) :
    memRead s a = .error f ↔
      (s.populated a = false ∧ f = .busError a) ∨ (s.populated a = true ∧ s.word a = none ∧ f = .unwrittenMemory a) := by
  unfold memRead
  split
  · next h => cases e : s.word a <;> simp [h, @eq_comm _ f]
  · next h => simp [h, @eq_comm _ f]

/-- Everything `memWrite` can do (R7, R142). -/
theorem memWrite_ok_iff (s : State) (a v : Word) (t : State) :
    memWrite s a v = .ok t ↔ s.populated a = true ∧ t = { s with mem := s.mem.store (u a) v } := by
  unfold memWrite
  split
  · next h => simp [h, @eq_comm _ t]
  · next h => simp [h]

/-- Everything `memWrite` can fail with (R142). -/
theorem memWrite_error_iff (s : State) (a v : Word) (f : Fault) :
    memWrite s a v = .error f ↔ s.populated a = false ∧ f = .busError a := by
  unfold memWrite
  split
  · next h => simp [h]
  · next h => simp [h, @eq_comm _ f]

/-- The word at the written address (R38). -/
theorem word_store_same (s : State) (a v : Word) :
    ({ s with mem := s.mem.store (u a) v } : State).word a = some v := by
  simp [State.word]

/-- The words at the other addresses (R38). -/
theorem word_store_ne (s : State) {a b : Word} (v : Word) (h : b ≠ a) :
    ({ s with mem := s.mem.store (u a) v } : State).word b = s.word b := by
  simp only [State.word]
  exact Memory.lookup_store_ne _ _ (fun e => h (Fin.ext e))

/-- Everything `fetch` can do (R70). -/
theorem fetch_ok_iff (s : State) (ir : Word) (t : State) :
    fetch s = .ok (ir, t) ↔ s.populated s.pc = true ∧ s.word s.pc = some ir ∧ t = s.setReg 0 (inc s.pc) := by
  have hr := memRead_ok_iff s s.pc
  unfold fetch
  cases h : memRead s s.pc with
  | error f =>
    have := hr ir
    simp only [h, reduceCtorEq, false_iff] at this ⊢
    exact fun ⟨a, b, _⟩ => this ⟨a, b⟩
  | ok v =>
    obtain ⟨h1, h2⟩ := (hr v).1 h
    simp [h1, h2, @eq_comm _ t]

end Sys2Proof.Machine
end

