-- ==== Sys2Proof/Laws/Operands.lean ====
section
/-! SUPPORT. What the operand operations can do, said once in the words of R71 (Safety.lean): later proofs cite these and do not unfold
`srcVal`, `dstPrepare` and `dstCommit`. -/

namespace Sys2Proof.Machine

/-- The address register after the pre-decrement is the operand's address. -/
theorem preDec_addr (a : Auto) (r : RegNum) (s : State) : (preDec a r s).reg r = operandAddr a r s := by
  cases a <;> simp [preDec, operandAddr]

/-- The pre-decrement leaves everything but registers. -/
@[simp] theorem preDec_mem (a : Auto) (r : RegNum) (s : State) : (preDec a r s).mem = s.mem := by cases a <;> rfl

@[simp] theorem preDec_cc (a : Auto) (r : RegNum) (s : State) : (preDec a r s).cc = s.cc := by cases a <;> rfl

@[simp] theorem preDec_unpopulated (a : Auto) (r : RegNum) (s : State) : (preDec a r s).unpopulated = s.unpopulated := by
  cases a <;> rfl

@[simp] theorem preDec_word (a : Auto) (r : RegNum) (s : State) (x : Word) : (preDec a r s).word x = s.word x := by
  cases a <;> rfl

@[simp] theorem preDec_populated (a : Auto) (r : RegNum) (s : State) (x : Word) :
    (preDec a r s).populated x = s.populated x := by cases a <;> rfl

/-- Pre-decrement and post-increment together step the address register once (R71). -/
theorem postInc_preDec (a : Auto) (r : RegNum) (s : State) :
    postInc a r (preDec a r s) = s.setReg r (registerAfter a (s.reg r)) := by
  cases a <;> simp [preDec, postInc, registerAfter]

/-- `zext` of a field is the word of that value. -/
theorem zext_iff (k : RegNum) (v : Word) : u v = k.val ↔ v = zext k := by
  have hk : k.val < W := Nat.lt_of_lt_of_le k.isLt (by decide)
  rw [Fin.ext_iff]
  show v.val = k.val ↔ v.val = k.val % W
  rw [Nat.mod_eq_of_lt hk]

/-- Everything a source access can answer (R73). -/
theorem srcVal_ok_iff (a : Auto) (o : Operand) (s : State) (v : Word) (t : State) :
    srcVal a o s = .ok (v, t) ↔ SourceIs a o s v t := by
  cases o with
  | const k => simp [srcVal, SourceIs, zext_iff, @eq_comm _ v, @eq_comm _ t]
  | reg r => simp [srcVal, SourceIs, @eq_comm _ v, @eq_comm _ t]
  | mem r =>
    simp only [srcVal, SourceIs]
    have hr := memRead_ok_iff (preDec a r s) ((preDec a r s).reg r)
    simp only [preDec_addr, preDec_populated, preDec_word] at hr
    cases h : memRead (preDec a r s) ((preDec a r s).reg r) with
    | error f =>
      have := hr v
      simp only [← preDec_addr, h, reduceCtorEq, false_iff] at this ⊢
      exact fun ⟨x, y, _⟩ => this ⟨x, y⟩
    | ok w =>
      rw [preDec_addr] at h
      obtain ⟨h1, h2⟩ := (hr w).1 h
      simp [h1, h2, postInc_preDec, @eq_comm _ t]

/-- A source access fails only in memory mode and with the read's fault (R73, R147). -/
theorem srcVal_error_iff (a : Auto) (o : Operand) (s : State) (f : Fault) :
    srcVal a o s = .error f ↔ ∃ r, o = .mem r ∧ memRead s (operandAddr a r s) = .error f := by
  cases o with
  | const k => simp [srcVal]
  | reg r => simp [srcVal]
  | mem r =>
    have e : memRead (preDec a r s) ((preDec a r s).reg r) = memRead s (operandAddr a r s) := by
      rw [preDec_addr]; cases a <;> rfl
    simp only [srcVal, e]
    cases h : memRead s (operandAddr a r s) <;> simp [h]

/-- A source access changes nothing but registers (R73). -/
theorem SourceIs.same {a : Auto} {o : Operand} {s t : State} {v : Word} (h : SourceIs a o s v t) :
    t.mem = s.mem ∧ t.cc = s.cc ∧ t.unpopulated = s.unpopulated := by
  cases o with
  | const k => rw [h.2]; exact ⟨rfl, rfl, rfl⟩
  | reg r => rw [h.2]; exact ⟨rfl, rfl, rfl⟩
  | mem r => rw [h.2.2]; exact ⟨rfl, rfl, rfl⟩

/-- The old value at the located destination is the one of `DestIs` (R74). -/
theorem locRead_ok_iff (a : Auto) (o : Operand) (s : State) (d : Word) :
    locRead (dstLocate a o s).1 (dstLocate a o s).2 = .ok d ↔ DestIs a o s d := by
  cases o with
  | const k => simp [dstLocate, locRead, DestIs, zext_iff, @eq_comm _ d]
  | reg r => simp [dstLocate, locRead, DestIs, @eq_comm _ d]
  | mem r => simp [dstLocate, locRead, DestIs, preDec_addr, memRead_ok_iff]

/-- Everything a destination access can answer (R74). -/
theorem dstPrepare_ok_iff (a : Auto) (o : Operand) (s : State) (d : Word) (l : Loc) (t : State) :
    dstPrepare a o s = .ok (d, l, t) ↔ DestIs a o s d ∧ (l, t) = dstLocate a o s := by
  have hr := locRead_ok_iff a o s
  unfold dstPrepare
  cases h : locRead (dstLocate a o s).1 (dstLocate a o s).2 with
  | error f =>
    have := hr d
    simp only [h, reduceCtorEq, false_iff] at this ⊢
    exact fun ⟨x, _⟩ => this x
  | ok w =>
    have hw := (hr w).1 h
    constructor
    · intro e
      simp only [Except.ok.injEq, Prod.mk.injEq] at e
      exact ⟨e.1 ▸ hw, e.2.symm⟩
    · rintro ⟨hd, e⟩
      have := (hr d).2 hd
      rw [h] at this
      simp only [Except.ok.injEq] at this
      rw [this, e]

/-- A destination access fails only in memory mode and with the read's fault (R74, R147). -/
theorem dstPrepare_error_iff (a : Auto) (o : Operand) (s : State) (f : Fault) :
    dstPrepare a o s = .error f ↔ ∃ r, o = .mem r ∧ memRead s (operandAddr a r s) = .error f := by
  cases o with
  | const k => simp [dstPrepare, dstLocate, locRead]
  | reg r => simp [dstPrepare, dstLocate, locRead]
  | mem r =>
    have e : memRead (preDec a r s) ((preDec a r s).reg r) = memRead s (operandAddr a r s) := by
      rw [preDec_addr]; cases a <;> rfl
    simp only [dstPrepare, dstLocate, locRead, e]
    cases h : memRead s (operandAddr a r s) <;> simp [h]

/-- Committing a result where the destination was located gives `destAfter` (R75, R77). -/
theorem dstCommit_located (a : Auto) (o : Operand) (s : State) (w : Word) (cc : CC) (h : DestWritable a o s) :
    dstCommit a (dstLocate a o s).1 w ((dstLocate a o s).2.setCC cc) = .ok (destAfter a o s w cc) := by
  cases o with
  | const k => rfl
  | reg r => rfl
  | mem r =>
    have hw : memWrite ((preDec a r s).setCC cc) (operandAddr a r s) w =
        .ok { ((preDec a r s).setCC cc) with mem := s.mem.store (u (operandAddr a r s)) w } := by
      rw [memWrite_ok_iff]
      refine ⟨?_, ?_⟩
      · simpa [DestWritable] using h
      · simp
    simp only [dstLocate, dstCommit, preDec_addr, hw]
    cases a <;> simp [destAfter, postInc, preDec, registerAfter, operandAddr, State.setReg, State.setCC, State.reg]

/-- Committing fails only for a memory word that `MEM_MAP` leaves out (R142, R147). -/
theorem dstCommit_located_error (a : Auto) (o : Operand) (s : State) (w : Word) (cc : CC) (f : Fault) :
    dstCommit a (dstLocate a o s).1 w ((dstLocate a o s).2.setCC cc) = .error f ↔
      ∃ r, o = .mem r ∧ s.populated (operandAddr a r s) = false ∧ f = .busError (operandAddr a r s) := by
  cases o with
  | const k => simp [dstLocate, dstCommit]
  | reg r => simp [dstLocate, dstCommit]
  | mem r =>
    simp only [dstLocate, dstCommit, preDec_addr]
    have he := memWrite_error_iff ((preDec a r s).setCC cc) (operandAddr a r s) w f
    simp only [State.setCC_populated, preDec_populated] at he
    cases h : memWrite ((preDec a r s).setCC cc) (operandAddr a r s) w with
    | error g => rw [h] at he; simpa using he
    | ok t =>
      have := (memWrite_ok_iff _ _ _ _).1 h
      simp only [State.setCC_populated, preDec_populated] at this
      simp [this.1]

/-- A readable destination can be written. -/
theorem DestIs.writable {a : Auto} {o : Operand} {s : State} {d : Word} (h : DestIs a o s d) : DestWritable a o s := by
  cases o with
  | const k => trivial
  | reg r => trivial
  | mem r => exact h.1

/-- Phases 2 to 5 with a readable destination (R77). -/
theorem modifyDst_of_destIs (compute : Word → Computed) {a : Auto} {o : Operand} {s : State} {d : Word}
    (h : DestIs a o s d) : modifyDst compute a o s = .ok (destAfter a o s (compute d).result (compute d).cc) := by
  have e := (dstPrepare_ok_iff a o s d _ _).2 ⟨h, rfl⟩
  rw [modifyDst, e]
  exact dstCommit_located a o s _ _ h.writable

/-- Everything phases 2 to 5 can do: the destination was readable and the state is `destAfter` (R77). -/
theorem modifyDst_ok_iff (compute : Word → Computed) (a : Auto) (o : Operand) (s t : State) :
    modifyDst compute a o s = .ok t ↔
      ∃ d, DestIs a o s d ∧ t = destAfter a o s (compute d).result (compute d).cc := by
  constructor
  · intro h
    cases e : dstPrepare a o s with
    | error f => simp [modifyDst, e] at h
    | ok p =>
      obtain ⟨d, l, s'⟩ := p
      have hd := ((dstPrepare_ok_iff a o s d l s').1 e).1
      exact ⟨d, hd, by rw [modifyDst_of_destIs compute hd] at h; simpa [eq_comm] using h⟩
  · rintro ⟨d, hd, rfl⟩
    exact modifyDst_of_destIs compute hd

/-- Everything move's phases 2 to 5 can do (R76, R77). -/
theorem overwriteDst_ok_iff (c : Computed) (a : Auto) (o : Operand) (s t : State) :
    overwriteDst c a o s = .ok t ↔ DestWritable a o s ∧ t = destAfter a o s c.result c.cc := by
  constructor
  · intro h
    by_cases hw : DestWritable a o s
    · rw [overwriteDst, dstCommit_located a o s _ _ hw] at h
      exact ⟨hw, by simpa [eq_comm] using h⟩
    · cases o with
      | const k => exact absurd trivial hw
      | reg r => exact absurd trivial hw
      | mem r =>
        have := (dstCommit_located_error a (.mem r) s c.result c.cc _).2
          ⟨r, rfl, by simpa [DestWritable] using hw, rfl⟩
        rw [overwriteDst, this] at h
        cases h
  · rintro ⟨hw, rfl⟩
    exact dstCommit_located a o s _ _ hw

/-- A readable source, then the rest, for add and sub (R88). -/
theorem formatG_of (compute : Word → Word → Computed) {a : Auto} {src dst : Operand} {s s' : State} {v d : Word}
    (hs : SourceIs a src s v s') (hd : DestIs a dst s' d) :
    formatG compute a src dst s = .ok (destAfter a dst s' (compute d v).result (compute d v).cc) := by
  rw [formatG, (srcVal_ok_iff a src s v s').2 hs]
  exact modifyDst_of_destIs _ hd

/-- Everything add and sub can do (R88). -/
theorem formatG_ok_iff (compute : Word → Word → Computed) (a : Auto) (src dst : Operand) (s t : State) :
    formatG compute a src dst s = .ok t ↔
      ∃ v s' d, SourceIs a src s v s' ∧ DestIs a dst s' d ∧
        t = destAfter a dst s' (compute d v).result (compute d v).cc := by
  constructor
  · intro h
    cases e : srcVal a src s with
    | error f => simp [formatG, e] at h
    | ok p =>
      obtain ⟨v, s'⟩ := p
      simp only [formatG, e] at h
      obtain ⟨d, hd, ht⟩ := (modifyDst_ok_iff _ a dst s' t).1 h
      exact ⟨v, s', d, (srcVal_ok_iff a src s v s').1 e, hd, ht⟩
  · rintro ⟨v, s', d, hs, hd, rfl⟩
    exact formatG_of compute hs hd

/-- The target rule of Format B: the operand's value is the target (R110). -/
@[simp] theorem branchFormat_target (t pc : Word) : Config.branchFormat.target t pc = t := rfl

/-- Everything a branch can do (R110). -/
theorem branch_ok_iff (cond : CC → Bool) (a : Auto) (src : Operand) (s t : State) :
    branch cond a src s = .ok t ↔
      ∃ v s', SourceIs a src s v s' ∧ t = if cond s.cc then s'.setReg 0 v else s' := by
  constructor
  · intro h
    cases e : srcVal a src s with
    | error f => simp [branch, e] at h
    | ok p =>
      obtain ⟨v, s'⟩ := p
      simp only [branch, e, Except.ok.injEq] at h
      exact ⟨v, s', (srcVal_ok_iff a src s v s').1 e, h.symm⟩
  · rintro ⟨v, s', hs, rfl⟩
    simp [branch, (srcVal_ok_iff a src s v s').2 hs]

/-- When a meaning's outcome is a next state. -/
@[simp] theorem outcomeOf_next_iff (r : Except Fault State) (t : State) : outcomeOf r = .next t ↔ r = .ok t := by
  cases r <;> simp [outcomeOf]

/-- When a meaning's outcome is a fault. -/
@[simp] theorem outcomeOf_fault_iff (r : Except Fault State) (f : Fault) : outcomeOf r = .fault f ↔ r = .error f := by
  cases r <;> simp [outcomeOf]

/-- Everything move can do (R85). -/
theorem execMove_next_iff (a : Auto) (src dst : Operand) (s t : State) :
    execMove a src dst s = .next t ↔
      ∃ v s', SourceIs a src s v s' ∧ DestWritable a dst s' ∧ t = destAfter a dst s' v ⟨sign3 v, 0, 0⟩ := by
  constructor
  · intro h
    cases e : srcVal a src s with
    | error f => simp [execMove, e] at h
    | ok p =>
      obtain ⟨v, s'⟩ := p
      simp only [execMove, e, outcomeOf_next_iff] at h
      obtain ⟨hw, ht⟩ := (overwriteDst_ok_iff _ a dst s' t).1 h
      exact ⟨v, s', (srcVal_ok_iff a src s v s').1 e, hw, ht⟩
  · rintro ⟨v, s', hs, hw, rfl⟩
    simp only [execMove, (srcVal_ok_iff a src s v s').2 hs, outcomeOf_next_iff]
    exact (overwriteDst_ok_iff _ a dst s' _).2 ⟨hw, rfl⟩

end Sys2Proof.Machine
end

