-- ==== Sys2Proof/Laws/Access.lean ====
section
/-! SUPPORT. The accesses of an operand in the words of R71 (Safety.lean): later proofs cite these and do not unfold `srcAccesses` and
`dstAccesses`. -/

namespace Sys2Proof.Machine

/-- The accesses of a source operand: its read (R35, R73). -/
theorem srcAccesses_eq (a : Auto) (o : Operand) (s : State) : srcAccesses a o s = readOf a o s := by
  cases o <;> simp [srcAccesses, readOf, preDec_addr]

/-- The accesses of a destination that is read: the read, then the write (R35, R74, R75). -/
theorem dstAccesses_true (a : Auto) (o : Operand) (s : State) :
    dstAccesses true a o s = readOf a o s ++ writeOf a o s := by
  cases o <;> simp [dstAccesses, dstLocate, readOf, writeOf, preDec_addr]

/-- The accesses of a destination that is not read: the write (R76). -/
theorem dstAccesses_false (a : Auto) (o : Operand) (s : State) : dstAccesses false a o s = writeOf a o s := by
  cases o <;> simp [dstAccesses, dstLocate, writeOf, preDec_addr]

/-- A source operand writes nothing (R31). -/
theorem write_notMem_srcAccesses (a : Auto) (o : Operand) (s : State) (x : Word) :
    Access.write x ∉ srcAccesses a o s := by
  cases o <;> simp [srcAccesses]

end Sys2Proof.Machine
end

