-- ==== Sys2Proof/Laws/PerInstr.lean ====
section
/-! SUPPORT. The family OpField: the first word of every well-formed instruction carries its group's op value in trits 08..07
(30_encoding.md R46, R49). -/

namespace Sys2Proof.Laws

/-- The op value of an instruction's group (R49). -/
def opValue : Instr → Nat
  | .move _ _ _ => 0
  | .add _ _ _ => 1
  | .sub _ _ _ => 2
  | .addc _ _ _ => 3
  | .subb _ _ _ => 3
  | .sl _ _ => 4
  | .sru _ _ => 4
  | .srs _ _ => 4
  | .beq _ _ => 5
  | .bne _ _ => 5
  | .blts _ _ => 5
  | .bles _ _ => 5
  | .bges _ _ => 5
  | .bgts _ _ => 5
  | .bltu _ _ => 5
  | .bleu _ _ => 5
  | .bgeu _ _ => 5
  | .bgtu _ _ => 5
  | .bpos _ _ => 5
  | .bnpos _ _ => 5
  | .bneg _ _ => 5
  | .bnneg _ _ => 5
  | .bvr _ _ => 5
  | .bvs _ _ => 5

/-- A code of three trits is below 27. -/
theorem operand_code_lt (o : Operand) : o.code < 27 := by
  cases o <;> simp only [Operand.code] <;> omega

/-- A code of one trit is below 3. -/
theorem auto_code_lt (a : Auto) : a.code < 3 := by cases a <;> decide

/-- A count field is below 9. -/
theorem countCode_lt {n : Nat} (h : countOk n = true) : countCode n < 9 := by
  simp only [countOk, Bool.and_eq_true, decide_eq_true_eq] at h
  simp only [countCode]
  split <;> omega

/-- The op field of a packed word. -/
theorem slice_pack_op {op a src dst : Nat} (ho : op < 9) (ha : a < 3) (hs : src < 27) (hd : dst < 27) :
    slice (pack op a src dst) 8 7 = op := by
  have h : (op * 3 ^ 7 + a * 3 ^ 6 + src * 3 ^ 3 + dst) % 19683 / 3 ^ 7 % 3 ^ 2 = op := by omega
  exact h

/-- The op field of a branch's word. -/
theorem slice_packBranch_op {a src k : Nat} (ha : a < 3) (hs : src < 27) (hk : k < 27) :
    slice (packBranch a src k) 8 7 = Config.opBranch := by
  have h : (5 * 3 ^ 7 + a * 3 ^ 6 + src * 3 ^ 3 + k * 3 ^ 0) % 19683 / 3 ^ 7 % 3 ^ 2 = 5 := by omega
  exact h

end Sys2Proof.Laws

namespace Sys2Proof.Laws.OpField

/-- The statement of the family, for one instruction. -/
def Statement (i : Instr) : Prop := i.wellFormed = true → slice (encode i) 8 7 = opValue i

theorem move (a : Auto) (src dst : Operand) : Statement (.move a src dst) := fun _ =>
  slice_pack_op (by decide) (auto_code_lt a) (operand_code_lt src) (operand_code_lt dst)

theorem add (a : Auto) (src dst : Operand) : Statement (.add a src dst) := fun _ =>
  slice_pack_op (by decide) (auto_code_lt a) (operand_code_lt src) (operand_code_lt dst)

theorem sub (a : Auto) (src dst : Operand) : Statement (.sub a src dst) := fun _ =>
  slice_pack_op (by decide) (auto_code_lt a) (operand_code_lt src) (operand_code_lt dst)

theorem addc (a : Auto) (rs : RegNum) (dst : Operand) : Statement (.addc a rs dst) := fun _ =>
  slice_pack_op (by decide) (auto_code_lt a) (by have := rs.isLt; omega) (operand_code_lt dst)

theorem subb (a : Auto) (rs : RegNum) (dst : Operand) : Statement (.subb a rs dst) := fun _ =>
  slice_pack_op (by decide) (auto_code_lt a) (by have := rs.isLt; omega) (operand_code_lt dst)

theorem sl (n : Nat) (dst : Operand) : Statement (.sl n dst) := fun h =>
  slice_pack_op (by decide) (by decide) (by have := countCode_lt h; omega) (operand_code_lt dst)

theorem sru (n : Nat) (dst : Operand) : Statement (.sru n dst) := fun h =>
  slice_pack_op (by decide) (by decide) (by have := countCode_lt h; omega) (operand_code_lt dst)

theorem srs (n : Nat) (dst : Operand) : Statement (.srs n dst) := fun h =>
  slice_pack_op (by decide) (by decide) (by have := countCode_lt h; omega) (operand_code_lt dst)

theorem beq (a : Auto) (src : Operand) : Statement (.beq a src) := fun _ =>
  slice_packBranch_op (auto_code_lt a) (operand_code_lt src) (by decide)

theorem bne (a : Auto) (src : Operand) : Statement (.bne a src) := fun _ =>
  slice_packBranch_op (auto_code_lt a) (operand_code_lt src) (by decide)

theorem blts (a : Auto) (src : Operand) : Statement (.blts a src) := fun _ =>
  slice_packBranch_op (auto_code_lt a) (operand_code_lt src) (by decide)

theorem bles (a : Auto) (src : Operand) : Statement (.bles a src) := fun _ =>
  slice_packBranch_op (auto_code_lt a) (operand_code_lt src) (by decide)

theorem bges (a : Auto) (src : Operand) : Statement (.bges a src) := fun _ =>
  slice_packBranch_op (auto_code_lt a) (operand_code_lt src) (by decide)

theorem bgts (a : Auto) (src : Operand) : Statement (.bgts a src) := fun _ =>
  slice_packBranch_op (auto_code_lt a) (operand_code_lt src) (by decide)

theorem bltu (a : Auto) (src : Operand) : Statement (.bltu a src) := fun _ =>
  slice_packBranch_op (auto_code_lt a) (operand_code_lt src) (by decide)

theorem bleu (a : Auto) (src : Operand) : Statement (.bleu a src) := fun _ =>
  slice_packBranch_op (auto_code_lt a) (operand_code_lt src) (by decide)

theorem bgeu (a : Auto) (src : Operand) : Statement (.bgeu a src) := fun _ =>
  slice_packBranch_op (auto_code_lt a) (operand_code_lt src) (by decide)

theorem bgtu (a : Auto) (src : Operand) : Statement (.bgtu a src) := fun _ =>
  slice_packBranch_op (auto_code_lt a) (operand_code_lt src) (by decide)

theorem bpos (a : Auto) (src : Operand) : Statement (.bpos a src) := fun _ =>
  slice_packBranch_op (auto_code_lt a) (operand_code_lt src) (by decide)

theorem bnpos (a : Auto) (src : Operand) : Statement (.bnpos a src) := fun _ =>
  slice_packBranch_op (auto_code_lt a) (operand_code_lt src) (by decide)

theorem bneg (a : Auto) (src : Operand) : Statement (.bneg a src) := fun _ =>
  slice_packBranch_op (auto_code_lt a) (operand_code_lt src) (by decide)

theorem bnneg (a : Auto) (src : Operand) : Statement (.bnneg a src) := fun _ =>
  slice_packBranch_op (auto_code_lt a) (operand_code_lt src) (by decide)

theorem bvr (a : Auto) (src : Operand) : Statement (.bvr a src) := fun _ =>
  slice_packBranch_op (auto_code_lt a) (operand_code_lt src) (by decide)

theorem bvs (a : Auto) (src : Operand) : Statement (.bvs a src) := fun _ =>
  slice_packBranch_op (auto_code_lt a) (operand_code_lt src) (by decide)

end Sys2Proof.Laws.OpField
end

