-- ==== Sys2Proof/Tests/Slice0.lean ====
section
/-! SUPPORT. Tests. Expected results are the spec's own: its worked examples, its encodings written trit by trit, and the vectors E<n> and
section 2 of 95_test_vectors.md. The theorems test_hyp_<Name> show that the hypotheses of the obligation <Name> can be met. -/

namespace Sys2Proof.Tests

open Sys2Proof.Machine

/-- A word from its nine trits, trit 08 first. -/
def trits (ts : List Nat) : Word := Word.ofNat (ts.foldl (fun n t => 3 * n + t) 0)

/-- The spec's start state of section 2: the instruction's words at 50, r1 to r7 and sp given, cc given, some memory words. -/
def start (ws : List Word) (regs : List Word) (cc : CC) (mem : List (Word × Word)) : State :=
  State.launch 50 (placeAt 50 ws ++ mem)
    #v[0, regs.getD 0 0, regs.getD 1 0, regs.getD 2 0, regs.getD 3 0, regs.getD 4 0, regs.getD 5 0, regs.getD 6 0, regs.getD 7 0]
    cc []

/-- One step from the state answers a next state with the property. -/
def gives (s : State) (p : State → Bool) : Bool :=
  match step s with
  | .next t => p t
  | .fault _ => false
  | .refused _ => false

/-- One step from the state stops with the fault. -/
def stops (s : State) (f : Fault) : Bool :=
  match step s with
  | .next _ => false
  | .fault g => decide (g = f)
  | .refused _ => false

/-- The instruction a word decodes to. -/
def reads (w : Word) (i : Instr) : Bool := decide ((decode w).toOption = some i)

/-! WellFormed: an ill-formed term for each check (R56, R106). -/

theorem test_wf_move : (Instr.move .inc (.reg 1) (.reg 2)).wellFormed = false := by decide
theorem test_wf_add : (Instr.add .dec (.const 1) (.reg 2)).wellFormed = false := by decide
theorem test_wf_sub : (Instr.sub .inc (.const 1) (.const 2)).wellFormed = false := by decide
theorem test_wf_addc : (Instr.addc .inc 2 (.reg 4)).wellFormed = false := by decide
theorem test_wf_subb : (Instr.subb .dec 2 (.const 4)).wellFormed = false := by decide
theorem test_wf_sl_zero : (Instr.sl 0 (.reg 1)).wellFormed = false := by decide
theorem test_wf_sl_ten : (Instr.sl 10 (.reg 1)).wellFormed = false := by decide
theorem test_wf_sru_zero : (Instr.sru 0 (.reg 1)).wellFormed = false := by decide
theorem test_wf_srs_ten : (Instr.srs 10 (.reg 1)).wellFormed = false := by decide
theorem test_wf_beq : (Instr.beq .inc (.reg 5)).wellFormed = false := by decide
theorem test_wf_bvs : (Instr.bvs .dec (.const 0)).wellFormed = false := by decide
theorem test_wf_good : (Instr.sub .dec (.reg 8) (.mem 8)).wellFormed = true := by decide

/-! Decoding: one word of each instruction, written out trit by trit from R46 to R55. -/

theorem test_decode_move : reads (trits [0, 0, 1, 2, 0, 1, 1, 1, 0]) (.move .inc (.mem 1) (.reg 3)) = true := by decide
theorem test_decode_add : reads (trits [0, 1, 2, 1, 2, 2, 2, 0, 2]) (.add .dec (.reg 8) (.mem 2)) = true := by decide
theorem test_decode_sub : reads (trits [0, 2, 0, 0, 1, 2, 1, 2, 1]) (.sub .plain (.const 5) (.reg 7)) = true := by decide
theorem test_decode_addc : reads (trits [1, 0, 1, 1, 1, 0, 2, 0, 2]) (.addc .inc 3 (.mem 2)) = true := by decide
theorem test_decode_subb : reads (trits [1, 0, 0, 2, 0, 1, 1, 2, 0]) (.subb .plain 1 (.reg 6)) = true := by decide
theorem test_decode_sl : reads (trits [1, 1, 0, 0, 0, 0, 0, 1, 1]) (.sl 9 (.const 4)) = true := by decide
theorem test_decode_sru : reads (trits [1, 1, 0, 1, 2, 2, 1, 0, 1]) (.sru 8 (.reg 1)) = true := by decide
theorem test_decode_srs : reads (trits [1, 1, 0, 2, 0, 1, 2, 2, 2]) (.srs 1 (.mem 8)) = true := by decide
theorem test_decode_beq : reads (trits [1, 2, 0, 1, 1, 2, 0, 0, 0]) (.beq .plain (.reg 5)) = true := by decide
theorem test_decode_bne : reads (trits [1, 2, 1, 2, 0, 0, 0, 0, 1]) (.bne .inc (.mem 0)) = true := by decide
theorem test_decode_blts : reads (trits [1, 2, 0, 0, 1, 0, 0, 0, 2]) (.blts .plain (.const 3)) = true := by decide
theorem test_decode_bles : reads (trits [1, 2, 2, 2, 2, 2, 0, 1, 0]) (.bles .dec (.mem 8)) = true := by decide
theorem test_decode_bges : reads (trits [1, 2, 0, 1, 0, 1, 0, 1, 1]) (.bges .plain (.reg 1)) = true := by decide
theorem test_decode_bgts : reads (trits [1, 2, 0, 1, 0, 1, 0, 1, 2]) (.bgts .plain (.reg 1)) = true := by decide
theorem test_decode_bltu : reads (trits [1, 2, 0, 1, 0, 1, 0, 2, 0]) (.bltu .plain (.reg 1)) = true := by decide
theorem test_decode_bleu : reads (trits [1, 2, 0, 1, 0, 1, 0, 2, 1]) (.bleu .plain (.reg 1)) = true := by decide
theorem test_decode_bgeu : reads (trits [1, 2, 0, 2, 0, 2, 0, 2, 2]) (.bgeu .plain (.mem 2)) = true := by decide
theorem test_decode_bgtu : reads (trits [1, 2, 0, 1, 0, 1, 1, 0, 0]) (.bgtu .plain (.reg 1)) = true := by decide
theorem test_decode_bpos : reads (trits [1, 2, 0, 1, 0, 1, 1, 0, 1]) (.bpos .plain (.reg 1)) = true := by decide
theorem test_decode_bnpos : reads (trits [1, 2, 0, 1, 0, 1, 1, 0, 2]) (.bnpos .plain (.reg 1)) = true := by decide
theorem test_decode_bneg : reads (trits [1, 2, 0, 1, 0, 1, 1, 1, 0]) (.bneg .plain (.reg 1)) = true := by decide
theorem test_decode_bnneg : reads (trits [1, 2, 0, 1, 0, 1, 1, 1, 1]) (.bnneg .plain (.reg 1)) = true := by decide
theorem test_decode_bvr : reads (trits [1, 2, 0, 1, 0, 1, 1, 1, 2]) (.bvr .plain (.reg 1)) = true := by decide
theorem test_decode_bvs : reads (trits [1, 2, 2, 2, 2, 2, 1, 2, 0]) (.bvs .dec (.mem 8)) = true := by decide

/-- The encoder against the worked encodings of R68. -/
theorem test_encode_worked :
    encode (.move .dec (.mem 8) (.reg 6)) = 2175 ∧ encode (.subb .plain 2 (.reg 4)) = 7114 ∧
      encode (.sl 9 (.const 2)) = 8750 ∧ encode (.bvs .plain (.const 3)) = 11031 := by decide

/-- The host's numbering: the unsigned value of the word (log 8). -/
theorem test_decodeTableWord : decodeTableWord 0 8785 = some (.sl 1 (.reg 1)) ∧ decodeTableWord 0 13122 = none ∧
    decodeTableWord 0 19683 = none := by decide

/-- `withFetchWord` places the instruction where the next step fetches it. -/
theorem test_withFetchWord :
    gives ((start [] [5] ⟨0, 0, 0⟩ []).withFetchWord 0 8785) (fun t => decide (t.reg 1 = 15 ∧ t.pc = 51)) = true := by
  decide

/-- R58: lengths of one, two and three words. -/
theorem test_length : (Instr.add .plain (.mem 0) (.reg 1)).length = 1 ∧ (Instr.bne .inc (.mem 0)).length = 2 ∧
    (Instr.move .inc (.mem 0) (.mem 0)).length = 3 := by decide

/-! One step of each instruction: vectors of section 2 of 95_test_vectors.md, and the examples of R112 to R127. -/

/-- `move+ *r1,*r1`: the pointer steps twice (R78). -/
theorem test_move_same_pointer :
    gives (start [1261] [300] ⟨0, 0, 0⟩ [(300, 11)])
      (fun t => decide (t.word 301 = some 11 ∧ t.reg 1 = 302 ∧ t.cc = ⟨1, 0, 0⟩)) = true := by decide

/-- `move+ *pc,*sp` then 150. -/
theorem test_move_push_immediate :
    gives (start [1241, 150] [0, 0, 0, 0, 0, 0, 0, 200] ⟨0, 0, 0⟩ [])
      (fun t => decide (t.word 200 = some 150 ∧ t.sp = 201 ∧ t.pc = 52)) = true := by decide

/-- `add r1,r1` on -9,841: overflow and carry. -/
theorem test_add_overflow_and_carry :
    gives (start [2467] [9842] ⟨0, 0, 0⟩ []) (fun t => decide (t.reg 1 = 1 ∧ t.cc = ⟨1, 1, 1⟩)) = true := by decide

/-- `add+ *pc,pc` then 19,680: the second source is pc after the immediate. -/
theorem test_add_relative_jump :
    gives (start [3411, 19680] [] ⟨0, 0, 0⟩ []) (fun t => decide (t.pc = 49 ∧ t.cc = ⟨1, 0, 1⟩)) = true := by decide

/-- `sub =1,r1` on -9,841: overflow, no borrow. -/
theorem test_sub_overflow :
    gives (start [4411] [9842] ⟨0, 0, 0⟩ []) (fun t => decide (t.reg 1 = 9841 ∧ t.cc = ⟨1, 1, 1⟩)) = true := by decide

/-- `sub r2,r1` with 0 - 9,841: in range, so v = 0. -/
theorem test_sub_exact_v :
    gives (start [4681] [0, 9841] ⟨0, 0, 0⟩ []) (fun t => decide (t.reg 1 = 9842 ∧ t.cc = ⟨2, 0, 0⟩)) = true := by decide

/-- `addc- r4,*r4`: the source register is read before the decrement. -/
theorem test_addc_same_register :
    gives (start [8392] [0, 0, 0, 300] ⟨0, 0, 0⟩ [(299, 1)])
      (fun t => decide (t.word 299 = some 301 ∧ t.reg 4 = 299 ∧ t.cc = ⟨1, 0, 0⟩)) = true := by decide

/-- `addc r2,r4` with c = 2 on entry: carry out 2. -/
theorem test_addc_carry_two :
    gives (start [6871] [0, 19682, 0, 19682] ⟨0, 0, 2⟩ []) (fun t => decide (t.reg 4 = 0 ∧ t.cc = ⟨0, 0, 2⟩)) = true := by
  decide

/-- `subb r2,r4`: 5 - 1 with a borrow. -/
theorem test_subb_borrow :
    gives (start [7114] [0, 1, 0, 5] ⟨0, 0, 0⟩ []) (fun t => decide (t.reg 4 = 3 ∧ t.cc = ⟨1, 0, 1⟩)) = true := by decide

/-- `subb r2,r4`: exact -19,683. -/
theorem test_subb_corner :
    gives (start [7114] [0, 9841, 0, 9842] ⟨0, 0, 0⟩ []) (fun t => decide (t.reg 4 = 0 ∧ t.cc = ⟨0, 1, 1⟩)) = true := by
  decide

/-- `sl 1,r1` on -3,281: out of range. -/
theorem test_sl_loss :
    gives (start [8785] [16402] ⟨0, 0, 0⟩ []) (fun t => decide (t.reg 1 = 9840 ∧ t.cc = ⟨1, 1, 2⟩)) = true := by decide

/-- `sl 8,=4` (E45). -/
theorem test_sl_constant :
    gives (start [8968] [] ⟨0, 0, 0⟩ []) (fun t => decide (t.cc = ⟨1, 1, 1⟩ ∧ t.pc = 51)) = true := by decide

/-- `sru 2,*r2`: v from trit 00, c from trit 01. -/
theorem test_sru_memory :
    gives (start [9065] [0, 300] ⟨0, 0, 0⟩ [(300, 100)])
      (fun t => decide (t.word 300 = some 11 ∧ t.cc = ⟨1, 1, 0⟩)) = true := by decide

/-- `sru 9,r1`: count field 00. -/
theorem test_sru_nine :
    gives (start [9001] [19682] ⟨0, 0, 0⟩ []) (fun t => decide (t.reg 1 = 0 ∧ t.cc = ⟨0, 1, 2⟩)) = true := by decide

/-- `srs 2,r1` on -10: floor. -/
theorem test_srs_floor :
    gives (start [9298] [19673] ⟨0, 0, 0⟩ []) (fun t => decide (t.reg 1 = 19681 ∧ t.cc = ⟨2, 1, 2⟩)) = true := by decide

/-- `srs 9,r1` on -9,841: every trit is the fill. -/
theorem test_srs_fill :
    gives (start [9244] [9842] ⟨0, 0, 0⟩ []) (fun t => decide (t.reg 1 = 19682 ∧ t.cc = ⟨2, 1, 1⟩)) = true := by decide

/-- Whether a branch with `*r5`'s register form is taken from cc: r5 = 300, the branch at 50. -/
def taken (k : Word) (cc : CC) : Option Bool :=
  match step (start [11313 + k] [0, 0, 0, 0, 300] cc []) with
  | .next t => if t.cc = cc then (if t.pc = 300 then some true else if t.pc = 51 then some false else none) else none
  | .fault _ => none
  | .refused _ => none

theorem test_beq : taken 0 ⟨0, 0, 1⟩ = some true ∧ taken 0 ⟨2, 0, 0⟩ = some false := by decide
theorem test_bne : taken 1 ⟨1, 0, 1⟩ = some true ∧ taken 1 ⟨0, 0, 1⟩ = some false := by decide
theorem test_blts : taken 2 ⟨1, 1, 1⟩ = some true ∧ taken 2 ⟨2, 1, 1⟩ = some false := by decide
theorem test_bles : taken 3 ⟨0, 0, 1⟩ = some true ∧ taken 3 ⟨1, 0, 1⟩ = some false := by decide
theorem test_bges : taken 4 ⟨2, 1, 1⟩ = some true ∧ taken 4 ⟨2, 0, 0⟩ = some false := by decide
theorem test_bgts : taken 5 ⟨2, 1, 1⟩ = some true ∧ taken 5 ⟨0, 0, 1⟩ = some false := by decide
theorem test_bltu : taken 6 ⟨1, 0, 0⟩ = some true ∧ taken 6 ⟨1, 0, 2⟩ = some false := by decide
theorem test_bleu : taken 7 ⟨0, 0, 1⟩ = some true ∧ taken 7 ⟨1, 0, 1⟩ = some false := by decide
theorem test_bgeu : taken 8 ⟨1, 0, 2⟩ = some true ∧ taken 8 ⟨2, 0, 0⟩ = some false := by decide
theorem test_bgtu : taken 9 ⟨1, 0, 1⟩ = some true ∧ taken 9 ⟨0, 0, 1⟩ = some false := by decide
theorem test_bpos : taken 10 ⟨1, 0, 0⟩ = some true ∧ taken 10 ⟨0, 0, 0⟩ = some false := by decide
theorem test_bnpos : taken 11 ⟨2, 0, 0⟩ = some true ∧ taken 11 ⟨1, 0, 0⟩ = some false := by decide
theorem test_bneg : taken 12 ⟨2, 0, 0⟩ = some true ∧ taken 12 ⟨1, 0, 0⟩ = some false := by decide
theorem test_bnneg : taken 13 ⟨0, 0, 0⟩ = some true ∧ taken 13 ⟨2, 0, 0⟩ = some false := by decide
theorem test_bvr : taken 14 ⟨1, 0, 0⟩ = some true ∧ taken 14 ⟨2, 1, 0⟩ = some false := by decide
theorem test_bvs : taken 15 ⟨2, 1, 0⟩ = some true ∧ taken 15 ⟨1, 0, 0⟩ = some false := by decide

/-- R129: the meaningless v = 2 is neither 0 nor 1. -/
theorem test_v_two : taken 2 ⟨2, 2, 0⟩ = some false ∧ taken 3 ⟨0, 2, 0⟩ = some true ∧ taken 15 ⟨1, 2, 0⟩ = some true ∧
    taken 14 ⟨1, 2, 0⟩ = some false := by decide

/-- `bvs- *sp` not taken: the operand's side effect happens all the same (R110). -/
theorem test_branch_not_taken_side_effect :
    gives (start [13110] [0, 0, 0, 0, 0, 0, 0, 201] ⟨2, 0, 0⟩ [(200, 9)])
      (fun t => decide (t.pc = 51 ∧ t.sp = 200)) = true := by decide

/-- The eight reserved words of section 2.8 stop the machine with the word and its address. -/
theorem test_reserved :
    ([13122, 19682, 1009, 6628, 7600, 9514, 10951, 11934] : List Word).all
      (fun w => stops (start [w] [] ⟨0, 0, 0⟩ []) (.reservedInstruction w 50)) = true := by decide

/-- pc wraps from 19,682 to 0 (D2): the all-zero word is `move =0,=`. -/
theorem test_pc_wraps :
    gives (State.launch 19682 [(19682, 0)] #v[0, 0, 0, 0, 0, 0, 0, 0, 0] ⟨2, 1, 1⟩ [])
      (fun t => decide (t.pc = 0 ∧ t.cc = ⟨0, 0, 0⟩)) = true := by decide

/-- A fetch outside `MEM_MAP` (R142), and a fetch of a word nothing has written (D22). -/
theorem test_fetch_faults :
    stops (State.launch 7 [] #v[0, 0, 0, 0, 0, 0, 0, 0, 0] ⟨0, 0, 0⟩ [7]) (.busError 7) = true ∧
      stops (start [] [] ⟨0, 0, 0⟩ []) (.unwrittenMemory 50) = true := by decide

/-- The readings of R12 to R14, with the worked check of R13 and the binary reading of the trits 000000101. -/
theorem test_readings : sg 9842 = -9841 ∧ sg 19682 = -1 ∧ sg 9841 = 9841 ∧ balancedValue 19682 = -1 ∧
    tcbValue (trits [0, 0, 0, 0, 0, 0, 1, 0, 1]) = 5 ∧ base27 9842 = ['D', 'D', 'E'] := by decide

/-! The assembler (R59 to R65). -/

/-- The first case of R65: `opcode =12,r1`. -/
theorem test_asm_immediate :
    (Asm.assembleText 50 ["move =12,r1".toList]).toOption = some [trits [0, 0, 1, 2, 0, 0, 1, 0, 1], 12] := by decide

/-- `sl 9,=2` (R68) and an operand list of R60. -/
theorem test_asm_shift : (Asm.assembleText 0 ["  sl 9,=2 ; set cc".toList, "move r2,=".toList]).toOption = some [8750, 297] := by
  decide

/-- R64, R92: labels, the dot and a backward displacement, the one-word loop's long form. -/
theorem test_asm_relative :
    (Asm.assembleText 100 ["here: add+ *pc,pc".toList, ".word here-(.+1)".toList]).toOption = some [3411, 19681] := by decide

/-- R64: a negative value is stored modulo 19,683, also below -9,841: 19,683 - 12,001 = 7,682. -/
theorem test_asm_negative :
    (Asm.assembleText 0 [".word 0-12001".toList, ".word 0-1".toList]).toOption = some [7682, 19682] := by decide

/-- R65: impossible with suffix `-` and with a plain memory destination. -/
theorem test_asm_impossible :
    (Asm.assembleText 0 ["move- =150,*sp".toList]).toOption = none ∧
      (Asm.assembleText 0 ["move =150,*sp".toList]).toOption = none := by decide

/-! The hypotheses of the obligations can be met: one theorem for each obligation that has hypotheses, on the state `S` or a variant. -/

/-- pc = 50 with `move+ *r1,*r1` there; r1 = 300, r2 = 9,841, r3 = -1, r4 = 0, r5 = -9,841, r6 = 6, r7 = 19,681, sp = 200. -/
def S : State :=
  start [1261, 4] [300, 9841, 19682, 0, 9842, 6, 19681, 200] ⟨2, 1, 2⟩
    [(0, 21), (19682, 22), (199, 5), (200, 9), (201, 7), (299, 13), (300, 11), (301, 17)]

/-- `S` with addresses 50, 300 and 301 left out of the map. -/
def Holes : State := { S with unpopulated := [50, 300, 301] }

/-- `S` with nothing in memory. -/
def Bare : State := { S with mem := [] }

theorem src_const : SourceIs .plain (.const 8) S 8 S := ⟨by decide, rfl⟩
theorem src_reg : SourceIs .plain (.reg 0) S 50 S := ⟨by decide, rfl⟩
theorem src_mem : SourceIs .plain (.mem 1) S 11 (S.setReg 1 300) := ⟨by decide, by decide, by decide⟩
theorem src_inc : SourceIs .inc (.mem 1) S 11 (S.setReg 1 301) := ⟨by decide, by decide, by decide⟩
theorem src_dec : SourceIs .dec (.mem 1) S 13 (S.setReg 1 299) := ⟨by decide, by decide, by decide⟩
theorem src_imm : SourceIs .inc (.mem 0) S 1261 (S.setReg 0 51) := ⟨by decide, by decide, by decide⟩
theorem dst_mem : DestIs .plain (.mem 4) S 21 := ⟨by decide, by decide⟩
theorem dst_dec_wraps : DestIs .dec (.mem 4) S 22 := ⟨by decide, by decide⟩
theorem dst_after_inc : DestIs .inc (.mem 1) (S.setReg 1 301) 17 := ⟨by decide, by decide⟩

theorem test_hyp_DecodeOfEncode : (Instr.sub .dec (.const 8) (.mem 8)).wellFormed = true ∧
    (Instr.addc .plain 8 (.const 0)).wellFormed = true ∧ (Instr.srs 9 (.mem 8)).wellFormed = true ∧
    (Instr.bvs .inc (.mem 0)).wellFormed = true := by decide
theorem test_hyp_EncodeOfDecode : decode 0 = .ok (.move .plain (.const 0) (.const 0)) ∧
    decode 13110 = .ok (.bvs .dec (.mem 8)) := ⟨rfl, rfl⟩
theorem test_hyp_ReservedWordsAreTheSevenRows : decode 13122 = .error .opUnassigned ∧
    decode 1009 = .error .autoWithoutMemoryG ∧ decode 6628 = .error .carryUnassigned ∧
    decode 7600 = .error .autoWithoutMemoryC ∧ decode 9514 = .error .shiftAuto ∧
    decode 10951 = .error .conditionUnassigned ∧ decode 10961 = .error .conditionUnassigned ∧
    decode 11934 = .error .autoWithoutMemoryB := ⟨rfl, rfl, rfl, rfl, rfl, rfl, rfl, rfl⟩
theorem test_hyp_StepRunsDecodedInstruction : S.populated S.pc = true ∧ S.word S.pc = some 1261 ∧
    decode 1261 = .ok (.move .inc (.mem 1) (.mem 1)) := ⟨by decide, by decide, rfl⟩
theorem test_hyp_PcAdvancesByLength : S.word S.pc = some 1261 ∧ decode 1261 = .ok (.move .inc (.mem 1) (.mem 1)) ∧
    mayMovePc (.move .inc (.mem 1) (.mem 1)) = false ∧ ∃ t, step S = .next t :=
  ⟨by decide, rfl, rfl, _, rfl⟩
theorem test_hyp_MoveResult : SourceIs .inc (.mem 1) S 11 (S.setReg 1 301) ∧
    DestWritable .inc (.mem 1) (S.setReg 1 301) ∧ SourceIs .plain (.const 8) S 8 S ∧ DestWritable .plain (.const 8) S :=
  ⟨src_inc, dst_after_inc.1, src_const, trivial⟩
theorem test_hyp_AddResult : SourceIs .inc (.mem 1) S 11 (S.setReg 1 301) ∧ DestIs .inc (.mem 1) (S.setReg 1 301) 17 ∧
    SourceIs .plain (.const 8) S 8 S ∧ DestIs .plain (.reg 0) S 50 :=
  ⟨src_inc, dst_after_inc, src_const, (by decide : (50 : Word) = S.reg 0)⟩
theorem test_hyp_SubResult : SourceIs .inc (.mem 1) S 11 (S.setReg 1 301) ∧ DestIs .inc (.mem 1) (S.setReg 1 301) 17 ∧
    SourceIs .plain (.reg 0) S 50 S ∧ DestIs .plain (.mem 4) S 21 := ⟨src_inc, dst_after_inc, src_reg, dst_mem⟩
theorem test_hyp_AddcResult : DestIs .dec (.mem 4) S 22 ∧ S.cc.c = 2 := ⟨dst_dec_wraps, by decide⟩
theorem test_hyp_SubbResult : DestIs .dec (.mem 4) S 22 ∧ S.cc.c = 2 := ⟨dst_dec_wraps, by decide⟩
theorem test_hyp_SlResult : 1 ≤ 9 ∧ 9 ≤ 9 ∧ DestIs .plain (.mem 4) S 21 := ⟨by decide, by decide, dst_mem⟩
theorem test_hyp_SruResult : 1 ≤ 9 ∧ 9 ≤ 9 ∧ DestIs .plain (.mem 4) S 21 := ⟨by decide, by decide, dst_mem⟩
theorem test_hyp_SrsResult : 1 ≤ 1 ∧ 1 ≤ 9 ∧ DestIs .plain (.mem 4) S 21 := ⟨by decide, by decide, dst_mem⟩
theorem test_hyp_ConstantMode : SourceIs .dec (.mem 1) S 13 (S.setReg 1 299) ∧ 1 ≤ 9 ∧ 9 ≤ 9 :=
  ⟨src_dec, by decide, by decide⟩
theorem test_hyp_ShiftCount : decode 8758 = .ok (.sl 9 (.reg 1)) ∧ decode 9028 = .ok (.sru 1 (.reg 1)) ∧
    decode 9298 = .ok (.srs 2 (.reg 1)) ∧ DestIs .plain (.mem 4) S 21 := ⟨rfl, rfl, rfl, dst_mem⟩
theorem test_hyp_EqualitySignAndOverflowBranches : SourceIs .inc (.mem 0) S 1261 (S.setReg 0 51) := src_imm
theorem test_hyp_SignedBranches : SourceIs .dec (.mem 1) S 13 (S.setReg 1 299) := src_dec
theorem test_hyp_UnsignedBranches : SourceIs .plain (.mem 1) S 11 (S.setReg 1 300) := src_mem
theorem test_hyp_BranchesAfterSubCompare : SourceIs .plain (.reg 2) S 9841 S ∧ DestIs .plain (.reg 5) S 9842 ∧
    ∃ t, exec (.sub .plain (.reg 2) (.reg 5)) S = .next t :=
  ⟨⟨by decide, rfl⟩, (by decide : (9842 : Word) = S.reg 5), _, rfl⟩
theorem test_hyp_OverflowInvertsSign : SourceIs .plain (.reg 2) S 9841 S ∧ DestIs .plain (.reg 2) S 9841 ∧
    DestIs .plain (.reg 5) S 9842 ∧
    (∃ t, exec (.add .plain (.reg 2) (.reg 2)) S = .next t ∧ t.cc.v = 1) ∧
    ∃ t, exec (.sub .plain (.reg 2) (.reg 5)) S = .next t ∧ t.cc.v = 1 :=
  ⟨⟨by decide, rfl⟩, (by decide : (9841 : Word) = S.reg 2), (by decide : (9842 : Word) = S.reg 5),
    ⟨_, rfl, by decide⟩, _, rfl, by decide⟩
theorem test_hyp_AddcOverflowCorners : DestIs .plain (.reg 2) S 9841 ∧
    (∃ t, exec (.addc .plain 2 (.reg 2)) S = .next t ∧ t.cc.v = 1) ∧
    (sg 9841, sg (S.reg 2), S.cc.c) = (9841, 9841, 2) :=
  ⟨(by decide : (9841 : Word) = S.reg 2), ⟨_, rfl, by decide⟩, by decide⟩
theorem test_hyp_AddcOverflowCorners_one :
    ∃ t, exec (.addc .plain 2 (.reg 2)) (S.setCC ⟨0, 0, 1⟩) = .next t ∧ t.cc.v = 1 ∧
      (sg 9841, sg (S.reg 2), (S.setCC ⟨0, 0, 1⟩).cc.c) = (9841, 9841, 1) := ⟨_, rfl, by decide, by decide⟩
theorem test_hyp_SubbOverflowCorners : DestIs .plain (.reg 2) S 9841 ∧
    (∃ t, exec (.subb .plain 5 (.reg 2)) S = .next t ∧ t.cc.v = 1) ∧
    (sg 9841, sg (S.reg 5), S.cc.c) = (9841, -9841, 2) :=
  ⟨(by decide : (9841 : Word) = S.reg 2), ⟨_, rfl, by decide⟩, by decide⟩
theorem test_hyp_SubbOverflowCorners_zero :
    ∃ t, exec (.subb .plain 2 (.reg 5)) (S.setCC ⟨0, 0, 0⟩) = .next t ∧ t.cc.v = 1 ∧
      (sg (S.reg 5), sg (S.reg 2), (S.setCC ⟨0, 0, 0⟩).cc.c) = (-9841, 9841, 0) := ⟨_, rfl, by decide, by decide⟩
theorem test_hyp_CarryTwoOnlyInOneCorner : DestIs .plain (.reg 3) S 19682 ∧
    (∃ t, exec (.addc .plain 3 (.reg 3)) S = .next t) ∧ ∃ t, exec (.subb .plain 4 (.reg 3)) S = .next t :=
  ⟨(by decide : (19682 : Word) = S.reg 3), ⟨_, rfl⟩, _, rfl⟩
theorem test_hyp_OverflowTritWrittenAsBit : ∃ t, step S = .next t := ⟨_, rfl⟩
theorem test_hyp_FrameOfMoveAddSub : ∃ t, exec (.add .inc (.mem 1) (.mem 1)) S = .next t := ⟨_, rfl⟩
theorem test_hyp_FrameOfCarryAndShift : (∃ t, exec (.subb .dec 3 (.mem 4)) S = .next t) ∧
    ∃ t, exec (.srs 9 (.mem 4)) S = .next t := ⟨⟨_, rfl⟩, _, rfl⟩
theorem test_hyp_FrameOfBranches : branchParts (.bgeu .dec (.mem 1)) = some (.dec, .mem 1) ∧
    ∃ t, exec (.bgeu .dec (.mem 1)) S = .next t := ⟨rfl, _, rfl⟩
theorem test_hyp_OnlyWrittenWordsChange : (∃ t, exec (.move .inc (.mem 1) (.mem 1)) S = .next t) ∧
    Access.write 300 ∉ accesses (.move .inc (.mem 1) (.mem 1)) S := ⟨⟨_, rfl⟩, by decide⟩
theorem test_hyp_OnlyReadWordsMatter : ([(300, 11)] : Memory) ≠ S.mem ∧
    ∀ x, Access.read x ∈ accesses (.move .inc (.mem 1) (.mem 1)) S →
      Memory.lookup [(300, 11)] (u x) = S.mem.lookup (u x) := by
  refine ⟨by decide, fun x hx => ?_⟩
  have h : accesses (.move .inc (.mem 1) (.mem 1)) S = [.read 300, .write 301] := by decide
  rw [h] at hx
  simp only [List.mem_cons, Access.read.injEq, reduceCtorEq, List.not_mem_nil, or_false] at hx
  subst hx
  decide
theorem test_hyp_AccessesInOrder : S.populated S.pc = true ∧ S.word S.pc = some 1261 ∧
    decode 1261 = .ok (.move .inc (.mem 1) (.mem 1)) ∧ SourceIs .inc (.mem 1) S 11 (S.setReg 1 301) ∧
    SourceIs .plain (.const 8) S 8 S ∧ branchParts (.bvs .dec (.mem 8)) = some (.dec, .mem 8) :=
  ⟨by decide, by decide, rfl, src_inc, src_const, rfl⟩
theorem test_hyp_SamePointerInBothFields : (∃ t, exec (.move .plain (.mem 1) (.mem 1)) S = .next t) ∧
    (∃ t, exec (.add .inc (.mem 1) (.mem 1)) S = .next t) ∧ ∃ t, exec (.sub .dec (.mem 8) (.mem 8)) (S.setReg 8 301) = .next t :=
  ⟨⟨_, rfl⟩, ⟨_, rfl⟩, _, rfl⟩
theorem test_hyp_AutoModifiedAndWrittenRegister : S.populated (S.reg 1) = true ∧ S.word (S.reg 1) = some 11 ∧
    S.populated (dec (S.reg 1)) = true ∧ S.word (dec (S.reg 1)) = some 13 ∧ S.populated (dec S.sp) = true ∧
    S.word (dec S.sp) = some 5 := by decide
theorem test_hyp_PcAsOperand : S.pc = inc 49 ∧ (8 : RegNum) ≠ 0 ∧ S.populated (inc 49) = true ∧
    S.word (inc 49) = some 1261 ∧ (S.setReg 0 51).pc = inc 50 ∧ (S.setReg 0 51).populated 50 = true ∧
    (S.setReg 0 51).word 50 = some 1261 := by decide
theorem test_hyp_JumpForms : S.pc = inc 49 ∧ S.populated (S.reg 1) = true ∧ S.word (S.reg 1) = some 11 ∧
    S.populated (inc 49) = true ∧ S.word (inc 49) = some 1261 ∧ S.populated S.sp = true ∧
    S.populated (dec S.sp) = true ∧ S.word (dec S.sp) = some 5 := by decide
theorem test_hyp_PushThenPop : S.populated (S.reg 4) = true ∧ S.populated (dec (S.reg 4)) = true := by decide
theorem test_hyp_BranchToPcIsNoOp : branchParts (.beq .plain (.reg 0)) = some (.plain, .reg 0) ∧
    branchParts (.bvs .plain (.reg 0)) = some (.plain, .reg 0) := ⟨rfl, rfl⟩
theorem test_hyp_OneWordLoop : (start [4410] [] ⟨0, 0, 0⟩ []).populated 50 = true ∧
    (start [4410] [] ⟨0, 0, 0⟩ []).pc = 50 ∧ (start [4410] [] ⟨0, 0, 0⟩ []).word 50 = some 4410 := by decide
theorem test_hyp_StoreThroughPcIsFetched : S.populated S.pc = true ∧ SourceIs .plain (.const 8) S 8 S ∧
    (S.setReg 0 51).populated (S.setReg 0 51).pc = true ∧ SourceIs .inc (.mem 0) S 1261 (S.setReg 0 51) :=
  ⟨by decide, src_const, by decide, src_imm⟩
theorem test_hyp_DoubleWordAdd : (3 : RegNum) ≠ 4 ∧ (3 : RegNum) ≠ 2 := by decide
theorem test_hyp_DoubleWordSub : (3 : RegNum) ≠ 4 ∧ (3 : RegNum) ≠ 2 := by decide
theorem test_hyp_FaultsOfAStep : step (start [13122] [] ⟨0, 0, 0⟩ []) = .fault (.reservedInstruction 13122 50) ∧
    step Holes = .fault (.busError 50) ∧ step Bare = .fault (.unwrittenMemory 50) := ⟨rfl, rfl, rfl⟩
theorem test_hyp_NoBusErrorWithFullMap : S.unpopulated = [] := rfl
theorem test_hyp_FaultPriority : Holes.populated Holes.pc = false ∧
    (start [13122] [] ⟨0, 0, 0⟩ []).populated 50 = true ∧ (start [13122] [] ⟨0, 0, 0⟩ []).word 50 = some 13122 ∧
    decode 13122 = .error .opUnassigned ∧ Holes.populated (operandAddr .inc 1 Holes) = false ∧
    branchParts (.beq .inc (.mem 1)) = some (.inc, .mem 1) ∧ SourceIs .plain (.const 8) Holes 8 Holes ∧
    Holes.populated (operandAddr .plain 1 Holes) = false :=
  ⟨by decide, by decide, by decide, rfl, by decide, rfl, ⟨by decide, rfl⟩, by decide⟩
theorem test_hyp_UnwrittenWordStops : Bare.populated Bare.pc = true ∧ Bare.word Bare.pc = none ∧
    Bare.populated (operandAddr .dec 4 Bare) = true ∧ Bare.word (operandAddr .dec 4 Bare) = none ∧
    SourceIs .plain (.reg 1) Bare 300 Bare := ⟨by decide, by decide, by decide, by decide, ⟨by decide, rfl⟩⟩
/-- A listed address has a word. -/
theorem lookup_of_mem : ∀ (m : Memory) (a : Nat), a ∈ m.map (fun c => c.1) → m.lookup a ≠ none
  | [], a => by simp
  | (b, v) :: m, a => by
    intro h
    simp only [List.map_cons, List.mem_cons] at h
    unfold Memory.lookup
    split
    · simp
    · next hne => exact lookup_of_mem m a (h.resolve_left hne)

theorem test_hyp_EveryInstructionCompletes : ({ S with mem := (List.range W).map fun a => (a, 0) } : State).unpopulated = [] ∧
    ∀ x, ({ S with mem := (List.range W).map fun a => (a, 0) } : State).word x ≠ none :=
  ⟨rfl, fun x => lookup_of_mem _ _ (by
    simp only [List.map_map, Function.comp_def, List.map_id', List.mem_range]
    exact x.isLt)⟩
theorem test_hyp_StepKeepsInv : Inv { S with unpopulated := [7] } ∧ ∃ t, step { S with unpopulated := [7] } = .next t := by
  refine ⟨⟨by decide, fun a ha => ?_⟩, _, rfl⟩
  have h : a = 7 := by simpa [State.populated] using ha
  subst h
  decide
theorem test_hyp_StepKeepsMemoryMap : ∃ t, step S = .next t := ⟨_, rfl⟩
theorem test_hyp_LaunchState : (1 : RegNum) ≠ 0 ∧ (300 : Word) ∉ ([50] : List Word) := by decide
theorem test_hyp_RunEndsAtEndPc : Ends 51 S
    (({ S with mem := S.mem.store 301 11 } : State).setReg 0 51 |>.setReg 1 302 |>.setCC ⟨1, 0, 0⟩) ∧ S.pc = 50 := ⟨⟨1, rfl⟩, by decide⟩
theorem test_hyp_OneEndState : Ends 50 S S := ⟨0, rfl⟩
theorem test_hyp_UnsignedReadingIsTritSum : (∀ i, i < 9 → trit 19682 i = 2) ∧ ∀ i, i < 9 → trit 0 i = 0 := by decide
theorem test_hyp_OutOfRangeConstantIsImmediate : Asm.Expr.eval [] 0 (.num 9) = .ok 9 ∧
    Asm.Expr.eval [] 0 (.sub (.num 0) (.num 12001)) = .ok (-12001) ∧ Asm.Expr.eval [] 0 (.num 19682) = .ok 19682 ∧
    ((9 : Int) < 0 ∨ (8 : Int) < 9) ∧ ((-12001 : Int) < 0 ∨ (8 : Int) < -12001) ∧ (19682 : Int) ≤ 19682 ∧
    Asm.destination [] 0 .discard = .ok (.const 0) ∧ Asm.destination [] 0 (.reg 8) = .ok (.reg 8) ∧
    Asm.destination [] 0 (.ind 0) = .ok (.mem 0) ∧ Asm.branchNames[0]? = some ['b', 'e', 'q'] ∧
    branchOf 0 = some .beq ∧ Asm.branchNames[15]? = some ['b', 'v', 's'] ∧ branchOf 15 = some .bvs :=
  ⟨rfl, rfl, rfl, by decide, by decide, by decide, rfl, rfl, rfl, rfl, rfl, rfl, rfl⟩

end Sys2Proof.Tests
end

/-! The readings of a word as arithmetic on its unsigned value (00_scope.md R6, 10_state.md R11 to R13). -/

namespace Sys2Proof

theorem u_le_maxu (w : Word) : u w ≤ 19682 := Nat.le_of_lt_succ w.isLt

@[simp] theorem u_ofNat (n : Nat) : u (Word.ofNat n) = n % 19683 := rfl

theorem trit_val (w : Word) (i : Nat) : (trit w i).val = u w / 3 ^ i % 3 := rfl

/-- The lowest `k` digits of a number in base `b` make up its remainder modulo `b ^ k`. -/
theorem sum_digits_eq_mod (n b k : Nat) : ((List.range k).map fun i => n / b ^ i % b * b ^ i).sum = n % b ^ k := by
  induction k with
  | zero => simp [Nat.mod_one]
  | succ k ih => simp [List.range_succ, ih, Nat.mod_pow_succ, Nat.mul_comm (b ^ k)]

/-- A word's unsigned value is the sum of its trits times their weights (R11). -/
theorem u_eq_tritSum (w : Word) : u w = ((List.range 9).map fun i => (trit w i).val * 3 ^ i).sum :=
  calc u w = u w % 3 ^ 9 := (Nat.mod_eq_of_lt (Nat.lt_succ_of_le (u_le_maxu w))).symm
    _ = ((List.range 9).map fun i => (trit w i).val * 3 ^ i).sum := (sum_digits_eq_mod (u w) 3 9).symm

/-- A word is determined by its nine trits. -/
theorem word_eq_of_trits {w w' : Word} (h : ∀ i, i < 9 → trit w i = trit w' i) : w = w' := by
  have hmap : ((List.range 9).map fun i => (trit w i).val * 3 ^ i) =
      (List.range 9).map fun i => (trit w' i).val * 3 ^ i :=
    List.map_congr_left fun i hi => by rw [h i (List.mem_range.1 hi)]
  apply Fin.ext
  change u w = u w'
  rw [u_eq_tritSum, hmap, ← u_eq_tritSum]

/-- Renaming every trit t as t - 1 takes the weight of nine ones, 9,841, off the value (R13). -/
theorem sum_trit_pred (w : Word) :
    ((List.range 9).map fun i => (((trit w i).val : Int) - 1) * 3 ^ i).sum = (u w : Int) - 9841 := by
  have hu := u_eq_tritSum w
  simp only [List.range_succ, List.range_zero, List.map_append, List.sum_append, List.map_cons, List.map_nil,
    List.sum_cons, List.sum_nil, List.nil_append] at hu ⊢
  omega

/-- The signed value is the unsigned one, less 19,683 in the upper half (R12). -/
theorem sg_eq (w : Word) : sg w = if u w ≤ 9841 then (u w : Int) else (u w : Int) - 19683 := rfl

theorem sg_bounds (w : Word) : -9841 ≤ sg w ∧ sg w ≤ 9841 := by
  have hw := u_le_maxu w
  rw [sg_eq]
  split <;> omega

/-- The sign trit tells zero, positive and negative signed values apart (R6). -/
theorem sign3_cases (w : Word) :
    (sign3 w = 0 ∧ sg w = 0) ∨ (sign3 w = 1 ∧ 0 < sg w) ∨ (sign3 w = 2 ∧ sg w < 0) := by
  have hw := u_le_maxu w
  rw [sg_eq, sign3]
  by_cases h0 : u w = 0
  · simp [h0]
  · by_cases hp : u w ≤ 9841
    · rw [if_neg h0, if_pos hp, if_pos hp]
      exact .inr (.inl ⟨rfl, by omega⟩)
    · rw [if_neg h0, if_neg hp, if_neg hp]
      exact .inr (.inr ⟨rfl, by omega⟩)

theorem sign3_eq_zero_iff (w : Word) : sign3 w = 0 ↔ sg w = 0 := by
  obtain ⟨ht, hz⟩ | ⟨ht, hz⟩ | ⟨ht, hz⟩ := sign3_cases w <;> simp [ht] <;> omega

theorem sign3_eq_one_iff (w : Word) : sign3 w = 1 ↔ 0 < sg w := by
  obtain ⟨ht, hz⟩ | ⟨ht, hz⟩ | ⟨ht, hz⟩ := sign3_cases w <;> simp [ht] <;> omega

theorem sign3_eq_two_iff (w : Word) : sign3 w = 2 ↔ sg w < 0 := by
  obtain ⟨ht, hz⟩ | ⟨ht, hz⟩ | ⟨ht, hz⟩ := sign3_cases w <;> simp [ht] <;> omega

/-- Settles O57, from the range of the signed value and the classification of the sign trit. -/
theorem signedReading : Obligations.SignedReading := by
  refine ⟨rfl, rfl, rfl, rfl, fun w => ?_⟩
  obtain ⟨hlow, hhigh⟩ := sg_bounds w
  exact ⟨sg_eq w, hlow, hhigh, sign3_eq_zero_iff w, sign3_eq_one_iff w, sign3_eq_two_iff w⟩

/-- Settles O58: the digit sum, and the two end words by their trits. -/
theorem unsignedReadingIsTritSum : Obligations.UnsignedReadingIsTritSum := by
  intro w
  refine ⟨u_eq_tritSum w, u_le_maxu w, fun h => ?_, fun h => ?_⟩
  · have hw : w = 0 := word_eq_of_trits fun i hi => (h i hi).trans (by decide +revert)
    rw [hw]; rfl
  · have hw : w = 19682 := word_eq_of_trits fun i hi => (h i hi).trans (by decide +revert)
    rw [hw]; rfl

/-- Settles O59: the biased word's trit sum, less the weight of nine ones, is the signed value in both halves. -/
theorem balancedReadingIsSignedValue : Obligations.BalancedReadingIsSignedValue := by
  intro w
  have hw := u_le_maxu w
  calc balancedValue w = (u (Word.ofNat (u w + 9841)) : Int) - 9841 := sum_trit_pred _
    _ = ((u w + 9841) % 19683 : Nat) - (9841 : Int) := by rw [u_ofNat]
    _ = sg w := by rw [sg_eq]; split <;> omega

end Sys2Proof

/-! What a step leaves in cc (10_state.md R20, R27). -/

namespace Sys2Proof.Machine

/-- v is 0 or 1, the values that an instruction writes (R20). -/
def CC.VIsBit (cc : CC) : Prop := cc.v = 0 ∨ cc.v = 1

theorem ite_zero_one_isBit (p : Prop) [Decidable p] :
    (if p then (0 : Trit) else 1) = 0 ∨ (if p then (0 : Trit) else 1) = 1 := by
  split
  · exact .inl rfl
  · exact .inr rfl

theorem adder_vIsBit (n : Nat) (z : Int) : (adder n z).cc.VIsBit := ite_zero_one_isBit _

theorem computeSl_vIsBit (n : Nat) (d : Word) : (computeSl n d).cc.VIsBit := ite_zero_one_isBit _

theorem computeSru_vIsBit (n : Nat) (d : Word) : (computeSru n d).cc.VIsBit := ite_zero_one_isBit _

theorem computeSrs_vIsBit (n : Nat) (d : Word) : (computeSrs n d).cc.VIsBit := ite_zero_one_isBit _

/-- Writing the destination leaves the condition codes that were written with it (R77). -/
@[simp] theorem destAfter_cc (a : Auto) (o : Operand) (s : State) (w : Word) (cc : CC) :
    (destAfter a o s w cc).cc = cc := by
  cases o <;> rfl

theorem modifyDst_vIsBit {compute : Word → Computed} {a : Auto} {o : Operand} {s t : State}
    (hc : ∀ d, (compute d).cc.VIsBit) (h : modifyDst compute a o s = .ok t) : t.cc.VIsBit := by
  obtain ⟨d, -, rfl⟩ := (modifyDst_ok_iff compute a o s t).1 h
  rw [destAfter_cc]
  exact hc d

theorem formatG_vIsBit {compute : Word → Word → Computed} {a : Auto} {src dst : Operand} {s t : State}
    (hc : ∀ d v, (compute d v).cc.VIsBit) (h : formatG compute a src dst s = .ok t) : t.cc.VIsBit := by
  obtain ⟨v, s', d, -, -, rfl⟩ := (formatG_ok_iff compute a src dst s t).1 h
  rw [destAfter_cc]
  exact hc d v

theorem execMove_vIsBit {a : Auto} {src dst : Operand} {s t : State} (h : execMove a src dst s = .next t) :
    t.cc.VIsBit := by
  obtain ⟨v, s', -, -, rfl⟩ := (execMove_next_iff a src dst s t).1 h
  rw [destAfter_cc]
  exact .inl rfl

/-- Each of the sixteen branches runs `branch` on its parts, with a condition of its own (R110). -/
theorem exec_of_branchParts {i : Instr} {a : Auto} {src : Operand} (h : branchParts i = some (a, src)) :
    ∃ cond, ∀ s, exec i s = outcomeOf (branch cond a src s) := by
  cases i <;> cases h <;> exact ⟨_, fun _ => rfl⟩

/-- A branch leaves cc as it was, taken or not (R110, D6). -/
theorem branch_cc {cond : CC → Bool} {a : Auto} {src : Operand} {s t : State} (h : branch cond a src s = .ok t) :
    t.cc = s.cc := by
  obtain ⟨v, s', hs, rfl⟩ := (branch_ok_iff cond a src s t).1 h
  obtain ⟨-, hcc, -⟩ := hs.same
  split
  · rw [State.setReg_cc, hcc]
  · exact hcc

/-- What every instruction but the branches leaves in v (R20, R90, R100 to R103). -/
theorem exec_vIsBit {i : Instr} {s t : State} (hb : branchParts i = none) (h : exec i s = .next t) : t.cc.VIsBit := by
  cases i with
  | move a src dst => exact execMove_vIsBit h
  | add a src dst => exact formatG_vIsBit (fun _ _ => adder_vIsBit _ _) ((outcomeOf_next_iff _ _).1 h)
  | sub a src dst => exact formatG_vIsBit (fun _ _ => adder_vIsBit _ _) ((outcomeOf_next_iff _ _).1 h)
  | addc a rs dst => exact modifyDst_vIsBit (fun _ => adder_vIsBit _ _) ((outcomeOf_next_iff _ _).1 h)
  | subb a rs dst => exact modifyDst_vIsBit (fun _ => adder_vIsBit _ _) ((outcomeOf_next_iff _ _).1 h)
  | sl n dst => exact modifyDst_vIsBit (computeSl_vIsBit n) ((outcomeOf_next_iff _ _).1 h)
  | sru n dst => exact modifyDst_vIsBit (computeSru_vIsBit n) ((outcomeOf_next_iff _ _).1 h)
  | srs n dst => exact modifyDst_vIsBit (computeSrs_vIsBit n) ((outcomeOf_next_iff _ _).1 h)
  | _ => cases hb

/-- An instruction leaves cc alone, as a branch does, or writes 0 or 1 to v. -/
theorem exec_cc {i : Instr} {s t : State} (h : exec i s = .next t) : t.cc = s.cc ∨ t.cc.VIsBit := by
  cases hb : branchParts i with
  | none => exact .inr (exec_vIsBit hb h)
  | some p =>
    obtain ⟨cond, he⟩ := exec_of_branchParts hb
    rw [he, outcomeOf_next_iff] at h
    exact .inl (branch_cc h)

/-- Everything a step that completes has done: fetched a word, stepped pc, and run the instruction the word reads as (R70). -/
theorem step_next_iff (s t : State) :
    step s = .next t ↔ ∃ ir i, s.populated s.pc = true ∧ s.word s.pc = some ir ∧ decode ir = .ok i ∧
      exec i (s.setReg 0 (inc s.pc)) = .next t := by
  constructor
  · intro h
    cases hf : fetch s with
    | error f => simp [step, hf] at h
    | ok p =>
      obtain ⟨ir, s'⟩ := p
      obtain ⟨hp, hw, rfl⟩ := (fetch_ok_iff s ir s').1 hf
      cases hd : decode ir with
      | error r => simp [step, hf, hd] at h
      | ok i => exact ⟨ir, i, hp, hw, hd, by simpa [step, hf, hd] using h⟩
  · rintro ⟨ir, i, hp, hw, hd, he⟩
    simpa [step, (fetch_ok_iff s ir _).2 ⟨hp, hw, rfl⟩, hd] using he

/-- Settles O25: the fetch leaves cc alone, and the instruction keeps it or writes a bit to v. -/
theorem overflowTritWrittenAsBit : Obligations.OverflowTritWrittenAsBit := by
  intro s t h
  obtain ⟨ir, i, -, -, -, he⟩ := (step_next_iff s t).1 h
  exact (exec_cc he).imp_left fun hcc => hcc.trans (State.setReg_cc s 0 _)

end Sys2Proof.Machine

/-! What the operands of an instruction leave unchanged, and its accesses (20_memory.md R30 to R36). -/

namespace Sys2Proof.Machine

/-- A source operand writes no register but the one it auto-modifies (R71). -/
theorem SourceIs.reg_eq {a : Auto} {o : Operand} {s s' : State} {v : Word} (h : SourceIs a o s v s') {r : RegNum}
    (hr : r ∉ autoRegs a o) : s'.reg r = s.reg r := by
  cases o with
  | const k => rw [h.2]
  | reg k => rw [h.2]
  | mem k =>
    obtain ⟨-, -, rfl⟩ := h
    cases a with
    | plain => simp [registerAfter]
    | inc => exact State.reg_setReg_ne s _ (by simpa [autoRegs] using hr)
    | dec => exact State.reg_setReg_ne s _ (by simpa [autoRegs] using hr)

@[simp] theorem destAfter_unpopulated (a : Auto) (o : Operand) (s : State) (w : Word) (cc : CC) :
    (destAfter a o s w cc).unpopulated = s.unpopulated := by
  cases o <;> rfl

/-- A destination writes no register but those it names (R71, R75). -/
theorem destAfter_reg_eq {a : Auto} {o : Operand} (s : State) (w : Word) (cc : CC) {r : RegNum}
    (hr : r ∉ dstRegs a o) : (destAfter a o s w cc).reg r = s.reg r := by
  cases o with
  | const k => rfl
  | reg k => exact State.reg_setReg_ne (s.setCC cc) w (by simpa [dstRegs] using hr)
  | mem k =>
    by_cases hk : r = k
    · cases a with
      | plain => rw [hk]; exact State.reg_setReg_same _ _ _
      | inc => simp [dstRegs, hk] at hr
      | dec => simp [dstRegs, hk] at hr
    · exact State.reg_setReg_ne _ _ hk

/-- A word that is not the one at the destination's address stays (R75). -/
theorem destAfter_word_eq {a : Auto} {o : Operand} {s : State} (w : Word) (cc : CC) {x : Word}
    (h : ∀ ea r, (dstLocate a o s).1 = .mem ea r → x ≠ ea) : (destAfter a o s w cc).word x = s.word x := by
  cases o with
  | const k => rfl
  | reg r => rfl
  | mem r =>
    rw [dstLocate, preDec_addr] at h
    exact word_store_ne s w (h _ r rfl)

/-- The word at the address a destination writes is the result (R75). -/
theorem destAfter_word_of_write {a : Auto} {o : Operand} {s : State} (w : Word) (cc : CC) {x : Word}
    (h : Access.write x ∈ writeOf a o s) : (destAfter a o s w cc).word x = some w := by
  cases o with
  | const k => simp [writeOf] at h
  | reg r => simp [writeOf] at h
  | mem r =>
    obtain rfl : x = operandAddr a r s := by simpa [writeOf] using h
    exact word_store_same s _ w

/-- Both phases of a completed move, add or sub: the source is read, and the destination is written (R77, R88). -/
theorem exec_move_add_sub_next {i : Instr} {a : Auto} {src dst : Operand} {s t : State}
    (hi : i = .move a src dst ∨ i = .add a src dst ∨ i = .sub a src dst) (h : exec i s = .next t) :
    ∃ v s' w cc, SourceIs a src s v s' ∧ t = destAfter a dst s' w cc := by
  obtain rfl | rfl | rfl := hi
  · obtain ⟨v, s', hs, -, ht⟩ := (execMove_next_iff a src dst s t).1 h
    exact ⟨v, s', _, _, hs, ht⟩
  · obtain ⟨v, s', d, hs, -, ht⟩ := (formatG_ok_iff computeAdd a src dst s t).1 ((outcomeOf_next_iff _ _).1 h)
    exact ⟨v, s', _, _, hs, ht⟩
  · obtain ⟨v, s', d, hs, -, ht⟩ := (formatG_ok_iff computeSub a src dst s t).1 ((outcomeOf_next_iff _ _).1 h)
    exact ⟨v, s', _, _, hs, ht⟩

/-- Settles O27: the frames of the source phase and of the destination's write, one after the other. -/
theorem frameOfMoveAddSub : Obligations.FrameOfMoveAddSub := by
  intro i a src dst s t hi h
  obtain ⟨v, s', w, cc, hs, rfl⟩ := exec_move_add_sub_next hi h
  obtain ⟨hmem, -, hmap⟩ := hs.same
  have hword : ∀ x, s'.word x = s.word x := fun x => by rw [State.word, hmem]; rfl
  refine ⟨fun r hsrc hdst => (destAfter_reg_eq s' w cc hdst).trans (hs.reg_eq hsrc),
    (destAfter_unpopulated a dst s' w cc).trans hmap, v, s', (srcVal_ok_iff a src s v s').2 hs, ?_⟩
  split
  · next hl => exact fun x => (destAfter_word_eq w cc (by simp [hl])).trans (hword x)
  · next hl => exact fun x => (destAfter_word_eq w cc (by simp [hl])).trans (hword x)
  · next hl => exact fun x hx => (destAfter_word_eq w cc (by simpa [hl] using hx)).trans (hword x)

/-- The accesses of a Format G instruction whose source can be read: the destination's follow the source's (R35, R77). -/
theorem gAccesses_of_sourceIs {a : Auto} {src : Operand} {s s' : State} {v : Word} (needRead : Bool) (dst : Operand)
    (h : SourceIs a src s v s') :
    gAccesses needRead a src dst s = readOf a src s ++ dstAccesses needRead a dst s' := by
  rw [gAccesses, (srcVal_ok_iff a src s v s').2 h, srcAccesses_eq]

/-- The accesses of each of the sixteen branches are those of its operand (R35). -/
theorem accesses_of_branchParts {i : Instr} {a : Auto} {src : Operand} (h : branchParts i = some (a, src)) (s : State) :
    accesses i s = srcAccesses a src s := by
  cases i <;> cases h <;> rfl

@[simp] theorem write_notMem_readOf (a : Auto) (o : Operand) (s : State) (x : Word) : Access.write x ∉ readOf a o s := by
  rw [← srcAccesses_eq]
  exact write_notMem_srcAccesses a o s x

/-- Settles O32, from the accesses of a source and of a destination with and without its read. -/
theorem accessesInOrder : Obligations.AccessesInOrder := by
  refine ⟨fun s ir i hp hw hd => ?_, fun a src dst s s' v hs => ?_, fun a rs dst s => ?_, fun n dst s => ?_,
    fun i a src s hb => (accesses_of_branchParts hb s).trans (srcAccesses_eq a src s)⟩
  · simp [stepAccesses, (fetch_ok_iff s ir _).2 ⟨hp, hw, rfl⟩, hd]
  · simp [accesses, gAccesses_of_sourceIs _ dst hs, dstAccesses_true, dstAccesses_false]
  · exact ⟨dstAccesses_true a dst s, dstAccesses_true a dst s⟩
  · exact ⟨dstAccesses_true .plain dst s, dstAccesses_true .plain dst s, dstAccesses_true .plain dst s⟩

/-- The four ways an instruction runs, with its accesses: move; a source phase, then a destination that is read (add, sub); such a
destination alone, with values taken from the registers and cc (addc, subb, the shifts); an operand read for a branch (R77, R110). -/
inductive RunsAs (i : Instr) : Prop where
  | move (a : Auto) (src dst : Operand) (hi : i = .move a src dst)
  | sourced (compute : Word → Word → Computed) (a : Auto) (src dst : Operand)
      (hexec : ∀ s, exec i s = outcomeOf (formatG compute a src dst s))
      (hacc : ∀ s, accesses i s = gAccesses true a src dst s)
  | modify (compute : Vector Word 9 → CC → Word → Computed) (a : Auto) (dst : Operand)
      (hexec : ∀ s, exec i s = outcomeOf (modifyDst (compute s.regs s.cc) a dst s))
      (hacc : ∀ s, accesses i s = dstAccesses true a dst s)
  | branch (cond : CC → Bool) (a : Auto) (src : Operand)
      (hexec : ∀ s, exec i s = outcomeOf (Machine.branch cond a src s))
      (hacc : ∀ s, accesses i s = srcAccesses a src s)

/-- Every branch runs as one. -/
theorem runsAs_of_branchParts {i : Instr} {p : Auto × Operand} (h : branchParts i = some p) : RunsAs i := by
  obtain ⟨cond, hexec⟩ := exec_of_branchParts h
  exact .branch cond p.1 p.2 hexec (accesses_of_branchParts h)

/-- Every instruction runs in one of the four ways. -/
theorem runsAs (i : Instr) : RunsAs i := by
  cases i with
  | move a src dst => exact .move a src dst rfl
  | add a src dst => exact .sourced computeAdd a src dst (fun _ => rfl) fun _ => rfl
  | sub a src dst => exact .sourced computeSub a src dst (fun _ => rfl) fun _ => rfl
  | addc a rs dst => exact .modify (fun regs cc d => computeAddc d regs[rs] cc.c) a dst (fun _ => rfl) fun _ => rfl
  | subb a rs dst => exact .modify (fun regs cc d => computeSubb d regs[rs] cc.c) a dst (fun _ => rfl) fun _ => rfl
  | sl n dst => exact .modify (fun _ _ => computeSl n) .plain dst (fun _ => rfl) fun _ => rfl
  | sru n dst => exact .modify (fun _ _ => computeSru n) .plain dst (fun _ => rfl) fun _ => rfl
  | srs n dst => exact .modify (fun _ _ => computeSrs n) .plain dst (fun _ => rfl) fun _ => rfl
  | _ => exact runsAs_of_branchParts rfl

/-! What a completed instruction does to memory. -/

/-- From `s` to `t` the memory map stays, and memory changes in one word at most, a populated one among the writes of `l`. -/
def StoresWithin (l : List Access) (s t : State) : Prop :=
  t.unpopulated = s.unpopulated ∧
    (t.mem = s.mem ∨ ∃ x w, Access.write x ∈ l ∧ s.populated x = true ∧ t.mem = s.mem.store (u x) w)

/-- A word outside the writes stays. -/
theorem StoresWithin.word_eq {l : List Access} {s t : State} (h : StoresWithin l s t) {x : Word}
    (hx : Access.write x ∉ l) : t.word x = s.word x := by
  obtain ⟨-, hm | ⟨y, w, hy, -, hm⟩⟩ := h
  · rw [State.word, hm]; rfl
  · have hne : x ≠ y := fun e => hx (e ▸ hy)
    rw [State.word, hm]
    exact word_store_ne s w hne

/-- One store to a populated word keeps the invariant (R30, R36). -/
theorem StoresWithin.inv {l : List Access} {s t : State} (h : StoresWithin l s t) (hs : Inv s) : Inv t := by
  obtain ⟨hmap, hm⟩ := h
  obtain ⟨hwf, hholes⟩ := hs
  have hpop : ∀ a, t.populated a = s.populated a := fun a => by rw [State.populated, hmap]; rfl
  obtain hm | ⟨x, w, -, hx, hm⟩ := hm
  · refine ⟨hm ▸ hwf, fun a ha => ?_⟩
    rw [State.word, hm]
    exact hholes a (hpop a ▸ ha)
  · refine ⟨hm ▸ Memory.wf_store s.mem (u x) w x.isLt hwf, fun a ha => ?_⟩
    rw [hpop] at ha
    have hne : a ≠ x := fun e => by simp [e, hx] at ha
    rw [State.word, hm]
    exact (word_store_ne s w hne).trans (hholes a ha)

/-- The writes may be among more accesses, and a state with the same memory and map may come before. -/
theorem StoresWithin.mono {l l' : List Access} {s s' t : State} (h : StoresWithin l s' t) (hmem : s'.mem = s.mem)
    (hmap : s'.unpopulated = s.unpopulated) (hl : l ⊆ l') : StoresWithin l' s t := by
  obtain ⟨hmap', hm⟩ := h
  refine ⟨hmap'.trans hmap, hm.imp (·.trans hmem) ?_⟩
  rintro ⟨x, w, hx, hp, hm⟩
  exact ⟨x, w, hl hx, by rwa [State.populated, hmap] at hp, by rw [hm, hmem]⟩

/-- A writable destination stores at most at its own address (R75). -/
theorem DestWritable.storesWithin {a : Auto} {o : Operand} {s : State} (h : DestWritable a o s) (w : Word) (cc : CC) :
    StoresWithin (writeOf a o s) s (destAfter a o s w cc) := by
  refine ⟨destAfter_unpopulated a o s w cc, ?_⟩
  cases o with
  | const k => exact .inl rfl
  | reg r => exact .inl rfl
  | mem r => exact .inr ⟨operandAddr a r s, w, by simp [writeOf], h, rfl⟩

/-- A completed instruction stores at most in one populated word that its accesses write (R31, R35). -/
theorem exec_storesWithin {i : Instr} {s t : State} (h : exec i s = .next t) : StoresWithin (accesses i s) s t := by
  cases runsAs i with
  | move a src dst hi =>
    subst hi
    obtain ⟨v, s', hs, hd, rfl⟩ := (execMove_next_iff a src dst s t).1 h
    obtain ⟨hmem, -, hmap⟩ := hs.same
    refine (hd.storesWithin v _).mono hmem hmap ?_
    simp [accesses, gAccesses_of_sourceIs _ dst hs, dstAccesses_false]
  | sourced compute a src dst hexec hacc =>
    rw [hexec, outcomeOf_next_iff] at h
    obtain ⟨v, s', d, hs, hd, rfl⟩ := (formatG_ok_iff compute a src dst s t).1 h
    obtain ⟨hmem, -, hmap⟩ := hs.same
    refine (hd.writable.storesWithin _ _).mono hmem hmap ?_
    simp [hacc, gAccesses_of_sourceIs _ dst hs, dstAccesses_true]
  | modify compute a dst hexec hacc =>
    rw [hexec, outcomeOf_next_iff] at h
    obtain ⟨d, hd, rfl⟩ := (modifyDst_ok_iff _ a dst s t).1 h
    refine (hd.writable.storesWithin _ _).mono rfl rfl ?_
    simp [hacc, dstAccesses_true]
  | branch cond a src hexec hacc =>
    rw [hexec, outcomeOf_next_iff] at h
    obtain ⟨v, s', hs, rfl⟩ := (branch_ok_iff cond a src s t).1 h
    obtain ⟨hmem, -, hmap⟩ := hs.same
    split <;> exact ⟨hmap, .inl hmem⟩

/-- Settles O30: a completed instruction stores only where its accesses write. -/
theorem onlyWrittenWordsChange : Obligations.OnlyWrittenWordsChange :=
  fun _ _ _ _ h hx => (exec_storesWithin h).word_eq hx

/-- A completed step's only store is its instruction's, the fetch storing nothing (R70). -/
theorem step_storesWithin {s t : State} (h : step s = .next t) : ∃ l, StoresWithin l s t := by
  obtain ⟨ir, i, -, -, -, he⟩ := (step_next_iff s t).1 h
  exact ⟨_, (exec_storesWithin he).mono (State.setReg_mem s 0 _) (State.setReg_unpopulated s 0 _) (List.Subset.refl _)⟩

/-- Settles O49: a step's one store is to a populated word, and such a store keeps the invariant. -/
theorem stepKeepsInv : Obligations.StepKeepsInv := by
  intro s t hs h
  obtain ⟨l, hl⟩ := step_storesWithin h
  exact hl.inv hs

/-- Settles O50: a store leaves the map. -/
theorem stepKeepsMemoryMap : Obligations.StepKeepsMemoryMap := by
  intro s t h
  obtain ⟨l, hmap, -⟩ := step_storesWithin h
  exact hmap

/-! Two runs of one instruction over memories that agree on the words it reads. -/

/-- The state with another memory. -/
def State.withMem (s : State) (m : Memory) : State := { s with mem := m }

/-- The memory `m` holds what `s` holds at every address that `l` reads. -/
def AgreesOnReads (l : List Access) (s : State) (m : Memory) : Prop :=
  ∀ x, Access.read x ∈ l → (s.withMem m).word x = s.word x

theorem AgreesOnReads.mono {l l' : List Access} {s : State} {m : Memory} (h : AgreesOnReads l' s m) (hl : l ⊆ l') :
    AgreesOnReads l s m := fun x hx => h x (hl hx)

/-- A state with the same memory agrees with `m` where `s` does. -/
theorem AgreesOnReads.congr {l : List Access} {s s' : State} {m : Memory} (h : AgreesOnReads l s m)
    (hmem : s'.mem = s.mem) : AgreesOnReads l s' m := fun x hx => by
  have hx' := h x hx
  simp only [State.word, State.withMem, hmem] at hx' ⊢
  exact hx'

/-- Two outcomes end alike: with the same registers, cc and map and the same word at every address `l` writes, or with the same
fault. -/
def EndAlike (l : List Access) (o o' : Host.Outcome State Fault Refusal) : Prop :=
  (∃ t t', o = .next t ∧ o' = .next t' ∧ t'.regs = t.regs ∧ t'.cc = t.cc ∧ t'.unpopulated = t.unpopulated ∧
    ∀ x, Access.write x ∈ l → t'.word x = t.word x) ∨
  ∃ f, o = .fault f ∧ o' = .fault f

/-- A source phase, and then the rest of the instruction with the value read: what move, add, sub and the branches share (R77,
R110). -/
def afterSource (rest : Word → State → Host.Outcome State Fault Refusal) (a : Auto) (src : Operand) (s : State) :
    Host.Outcome State Fault Refusal :=
  match srcVal a src s with
  | .error f => .fault f
  | .ok (v, s') => rest v s'

theorem execMove_eq_afterSource (a : Auto) (src dst : Operand) (s : State) :
    execMove a src dst s = afterSource (fun v s' => outcomeOf (overwriteDst (computeMove v) a dst s')) a src s := rfl

theorem formatG_eq_afterSource (compute : Word → Word → Computed) (a : Auto) (src dst : Operand) (s : State) :
    outcomeOf (formatG compute a src dst s) =
      afterSource (fun v s' => outcomeOf (modifyDst (fun d => compute d v) a dst s')) a src s := by
  rw [formatG, afterSource]
  cases srcVal a src s <;> rfl

theorem branch_eq_afterSource (cond : CC → Bool) (a : Auto) (src : Operand) (s : State) :
    outcomeOf (branch cond a src s) = afterSource (fun t s' => .next (if cond s.cc then s'.setReg 0 t else s')) a src s := by
  rw [branch, afterSource]
  cases srcVal a src s <;> rfl

theorem afterSource_of_sourceIs {rest : Word → State → Host.Outcome State Fault Refusal} {a : Auto} {src : Operand}
    {s s' : State} {v : Word} (h : SourceIs a src s v s') : afterSource rest a src s = rest v s' := by
  rw [afterSource, (srcVal_ok_iff a src s v s').2 h]

@[simp] theorem operandAddr_withMem (a : Auto) (r : RegNum) (s : State) (m : Memory) :
    operandAddr a r (s.withMem m) = operandAddr a r s := by
  cases a <;> rfl

@[simp] theorem writeOf_withMem (a : Auto) (o : Operand) (s : State) (m : Memory) :
    writeOf a o (s.withMem m) = writeOf a o s := by
  cases o <;> simp [writeOf]

@[simp] theorem destWritable_withMem (a : Auto) (o : Operand) (s : State) (m : Memory) :
    DestWritable a o (s.withMem m) ↔ DestWritable a o s := by
  cases o <;> cases a <;> exact Iff.rfl

/-- A read depends on the word read and the map alone (R35). -/
theorem memRead_withMem {s : State} {m : Memory} {x : Word} (h : (s.withMem m).word x = s.word x) :
    memRead (s.withMem m) x = memRead s x := by
  simp only [memRead, h]
  rfl

/-- A source that can be read can be read from the other memory, with the same value and registers. -/
theorem SourceIs.withMem {a : Auto} {o : Operand} {s s' : State} {v : Word} {m : Memory} (h : SourceIs a o s v s')
    (hm : AgreesOnReads (readOf a o s) s m) : SourceIs a o (s.withMem m) v (s'.withMem m) := by
  cases o with
  | const k => exact ⟨h.1, h.2 ▸ rfl⟩
  | reg r => exact ⟨h.1, h.2 ▸ rfl⟩
  | mem r =>
    obtain ⟨hp, hw, rfl⟩ := h
    rw [SourceIs, operandAddr_withMem]
    exact ⟨hp, (hm _ (by simp [readOf])).trans hw, rfl⟩

/-- A destination that can be read holds the same value in the other memory. -/
theorem DestIs.withMem {a : Auto} {o : Operand} {s : State} {d : Word} {m : Memory} (h : DestIs a o s d)
    (hm : AgreesOnReads (readOf a o s) s m) : DestIs a o (s.withMem m) d := by
  cases o with
  | const k => exact h
  | reg r => exact h
  | mem r =>
    rw [DestIs, operandAddr_withMem]
    exact ⟨h.1, (hm _ (by simp [readOf])).trans h.2⟩

/-- The fault of an operand's read is the same over the other memory. -/
theorem readError_withMem {a : Auto} {o : Operand} {s : State} {m : Memory} {f : Fault}
    (hm : AgreesOnReads (readOf a o s) s m) (h : ∃ r, o = .mem r ∧ memRead s (operandAddr a r s) = .error f) :
    ∃ r, o = .mem r ∧ memRead (s.withMem m) (operandAddr a r (s.withMem m)) = .error f := by
  obtain ⟨r, rfl, hr⟩ := h
  refine ⟨r, rfl, ?_⟩
  rw [operandAddr_withMem, memRead_withMem (hm _ (by simp [readOf])), hr]

/-- The source phase over both memories: the same value and registers, or the same fault (R73). -/
theorem srcVal_withMem_cases {a : Auto} {o : Operand} {s : State} {m : Memory} (hm : AgreesOnReads (readOf a o s) s m) :
    (∃ v s', SourceIs a o s v s' ∧ SourceIs a o (s.withMem m) v (s'.withMem m)) ∨
      ∃ f, srcVal a o s = .error f ∧ srcVal a o (s.withMem m) = .error f := by
  cases e : srcVal a o s with
  | ok p =>
    have hs := (srcVal_ok_iff a o s p.1 p.2).1 e
    exact .inl ⟨p.1, p.2, hs, hs.withMem hm⟩
  | error f =>
    exact .inr ⟨f, rfl, (srcVal_error_iff a o _ f).2 (readError_withMem hm ((srcVal_error_iff a o s f).1 e))⟩

/-- Writing one destination over both memories gives states that end alike (R75). -/
theorem destAfter_endAlike (a : Auto) (o : Operand) (s : State) (m : Memory) (w : Word) (cc : CC) :
    EndAlike (writeOf a o s) (.next (destAfter a o s w cc)) (.next (destAfter a o (s.withMem m) w cc)) := by
  refine .inl ⟨_, _, rfl, rfl, ?_, by simp, ?_, fun x hx => ?_⟩
  · cases o <;> rfl
  · cases o <;> rfl
  · rw [destAfter_word_of_write w cc hx, destAfter_word_of_write w cc (by simpa using hx)]

/-- Phases 2 to 5 with a destination that is read (R77). -/
theorem modifyDst_endAlike (compute : Word → Computed) {a : Auto} {o : Operand} {s : State} {m : Memory}
    (hm : AgreesOnReads (readOf a o s) s m) :
    EndAlike (writeOf a o s) (outcomeOf (modifyDst compute a o s)) (outcomeOf (modifyDst compute a o (s.withMem m))) := by
  cases e : dstPrepare a o s with
  | ok p =>
    obtain ⟨hd, -⟩ := (dstPrepare_ok_iff a o s p.1 p.2.1 p.2.2).1 e
    rw [modifyDst_of_destIs compute hd, modifyDst_of_destIs compute (hd.withMem hm)]
    exact destAfter_endAlike a o s m _ _
  | error f =>
    have e' := (dstPrepare_error_iff a o _ f).2 (readError_withMem hm ((dstPrepare_error_iff a o s f).1 e))
    exact .inr ⟨f, by simp [modifyDst, e], by simp [modifyDst, e']⟩

/-- Phases 2 to 5 of move (R76, R77). -/
theorem overwriteDst_endAlike (c : Computed) (a : Auto) (o : Operand) (s : State) (m : Memory) :
    EndAlike (writeOf a o s) (outcomeOf (overwriteDst c a o s)) (outcomeOf (overwriteDst c a o (s.withMem m))) := by
  cases e : overwriteDst c a o s with
  | ok t =>
    obtain ⟨hw, rfl⟩ := (overwriteDst_ok_iff c a o s t).1 e
    rw [(overwriteDst_ok_iff c a o (s.withMem m) _).2 ⟨(destWritable_withMem a o s m).2 hw, rfl⟩]
    exact destAfter_endAlike a o s m _ _
  | error f =>
    obtain ⟨r, ho, hp, hf⟩ := (dstCommit_located_error a o s c.result c.cc f).1 e
    have e' : overwriteDst c a o (s.withMem m) = .error f :=
      (dstCommit_located_error a o (s.withMem m) c.result c.cc f).2
        ⟨r, ho, by rwa [operandAddr_withMem], by rwa [operandAddr_withMem]⟩
    exact .inr ⟨f, rfl, by rw [e']; rfl⟩

/-- Outcomes that end alike do so for fewer writes. -/
theorem EndAlike.mono {l l' : List Access} {o o' : Host.Outcome State Fault Refusal} (h : EndAlike l' o o')
    (hl : ∀ x, Access.write x ∈ l → Access.write x ∈ l') : EndAlike l o o' := by
  refine h.imp_left ?_
  rintro ⟨t, t', ho, ho', hregs, hcc, hmap, hword⟩
  exact ⟨t, t', ho, ho', hregs, hcc, hmap, fun x hx => hword x (hl x hx)⟩

/-- A source phase over both memories, where what follows it ends alike (R77, R110). -/
theorem afterSource_endAlike {rest : Word → State → Host.Outcome State Fault Refusal} {l : List Access} {a : Auto}
    {src : Operand} {s : State} {m : Memory} (hm : AgreesOnReads (readOf a src s) s m)
    (hrest : ∀ v s', SourceIs a src s v s' → EndAlike l (rest v s') (rest v (s'.withMem m))) :
    EndAlike l (afterSource rest a src s) (afterSource rest a src (s.withMem m)) := by
  obtain ⟨v, s', hs, hs'⟩ | ⟨f, e, e'⟩ := srcVal_withMem_cases hm
  · rw [afterSource_of_sourceIs hs, afterSource_of_sourceIs hs']
    exact hrest v s' hs
  · exact .inr ⟨f, by rw [afterSource, e], by rw [afterSource, e']⟩

/-- The source of a Format G instruction is among its reads. -/
theorem AgreesOnReads.source {needRead : Bool} {a : Auto} {src dst : Operand} {s : State} {m : Memory}
    (h : AgreesOnReads (gAccesses needRead a src dst s) s m) : AgreesOnReads (readOf a src s) s m := by
  rw [← srcAccesses_eq]
  exact h.mono (List.subset_append_left _ _)

/-- Over two memories that agree on what it reads, an instruction ends alike (R31, R35). -/
theorem exec_endAlike {i : Instr} {s : State} {m : Memory} (hm : AgreesOnReads (accesses i s) s m) :
    EndAlike (accesses i s) (exec i s) (exec i (s.withMem m)) := by
  cases runsAs i with
  | move a src dst hi =>
    subst hi
    simp only [exec, accesses, execMove_eq_afterSource] at hm ⊢
    refine afterSource_endAlike hm.source fun v s' hs => ?_
    rw [gAccesses_of_sourceIs _ dst hs, dstAccesses_false]
    exact (overwriteDst_endAlike _ a dst s' m).mono (by simp)
  | sourced compute a src dst hexec hacc =>
    simp only [hexec, hacc, formatG_eq_afterSource] at hm ⊢
    refine afterSource_endAlike hm.source fun v s' hs => ?_
    rw [gAccesses_of_sourceIs _ dst hs, dstAccesses_true] at hm ⊢
    have hdst : AgreesOnReads (readOf a dst s') s' m := (hm.mono (by simp)).congr hs.same.1
    exact (modifyDst_endAlike _ hdst).mono (by simp)
  | modify compute a dst hexec hacc =>
    simp only [hexec, hacc, dstAccesses_true] at hm ⊢
    exact (modifyDst_endAlike _ (hm.mono (by simp))).mono (by simp)
  | branch cond a src hexec hacc =>
    simp only [hexec, hacc, srcAccesses_eq, branch_eq_afterSource] at hm ⊢
    refine afterSource_endAlike hm fun v s' _ => .inl ⟨_, _, rfl, rfl, ?_⟩
    split <;> exact ⟨rfl, rfl, rfl, by simp⟩

/-- Settles O31: the two runs end alike, in two next states or in one fault. -/
theorem onlyReadWordsMatter : Obligations.OnlyReadWordsMatter := by
  intro i s m hm
  obtain ⟨t, t', e, e', ht⟩ | ⟨f, e, e'⟩ := exec_endAlike (m := m) hm
  · change exec i { s with mem := m } = _ at e'
    rw [e, e']
    exact ht
  · change exec i { s with mem := m } = _ at e'
    rw [e, e']

/-! A store through pc (20_memory.md R41, 40_operands.md R80). -/

/-- A move to a writable word runs, and leaves the result at the destination's address and the address register stepped (R85). -/
theorem move_to_mem {a : Auto} {src : Operand} {r : RegNum} {s s' : State} {v : Word} (hs : SourceIs a src s v s')
    (hp : s'.populated (operandAddr a r s') = true) :
    ∃ t, exec (.move a src (.mem r)) s = .next t ∧ t.word (operandAddr a r s') = some v ∧
      t.reg r = registerAfter a (s'.reg r) ∧ t.unpopulated = s'.unpopulated :=
  ⟨_, (execMove_next_iff a src (.mem r) s _).2 ⟨v, s', hs, hp, rfl⟩, word_store_same s' _ v,
    State.reg_setReg_same _ r _, rfl⟩

/-- Settles O40: the store is at pc, which stays for the next fetch or steps over the word. -/
theorem storeThroughPcIsFetched : Obligations.StoreThroughPcIsFetched := by
  intro src s s' v hp
  refine ⟨fun hs => ?_, fun hs => ?_⟩
  · obtain ⟨t, he, hw, hpc, hmap⟩ := move_to_mem (r := 0) hs hp
    change t.pc = s'.pc at hpc
    refine ⟨t, he, (fetch_ok_iff t v _).2 ⟨?_, by rwa [hpc], by rw [hpc]⟩⟩
    rwa [hpc, State.populated, hmap]
  · obtain ⟨t, he, hw, hpc, -⟩ := move_to_mem (r := 0) hs hp
    exact ⟨t, he, hw, hpc⟩

end Sys2Proof.Machine

/-! The fields of an instruction word, and decode and encode as inverses (30_encoding.md R46 to R57). -/

namespace Sys2Proof

/-- The op field, from its two trits (R46). -/
theorem slice_op_eq (w : Word) : slice w 8 7 = 3 * (trit w 8).val + (trit w 7).val := by
  have h : u w / 3 ^ 7 % 3 ^ 2 = 3 * (u w / 3 ^ 8 % 3) + u w / 3 ^ 7 % 3 := by omega
  exact h

/-- Three trits are a mode trit before a two-trit field (R47). -/
theorem slice_three_eq (w : Word) (lo : Nat) :
    slice w (lo + 2) lo = 9 * (trit w (lo + 2)).val + (twoTrits w lo).val := by
  have hhi : lo + 2 - lo + 1 = 3 := by omega
  have htwo : (twoTrits w lo).val = u w / 3 ^ lo % 9 := by
    change u w / 3 ^ lo % 3 ^ (lo + 1 - lo + 1) % 9 = u w / 3 ^ lo % 9
    rw [show lo + 1 - lo + 1 = 2 by omega]
    omega
  rw [htwo, trit_val, slice, hhi, pow_add, ← Nat.div_div_eq_div_mul]
  omega

/-- A word is packed from four numbers exactly when they are its fields (R46). -/
theorem pack_eq_iff {op a src dst : Nat} {w : Word} (ho : op < 9) (ha : a < 3) (hs : src < 27) (hd : dst < 27) :
    pack op a src dst = w ↔
      slice w 8 7 = op ∧ (trit w 6).val = a ∧ slice w 5 3 = src ∧ slice w 2 0 = dst := by
  have hw := u_le_maxu w
  have h : (op * 3 ^ 7 + a * 3 ^ 6 + src * 3 ^ 3 + dst) % 19683 = u w ↔
      u w / 3 ^ 7 % 3 ^ 2 = op ∧ u w / 3 ^ 6 % 3 = a ∧ u w / 3 ^ 3 % 3 ^ 3 = src ∧ u w / 3 ^ 0 % 3 ^ 3 = dst := by
    omega
  exact Fin.ext_iff.trans h

/-- Format B packs as the other formats do, the condition number in the place of dst (R53). -/
theorem packBranch_eq_pack (a src k : Nat) : packBranch a src k = pack Config.opBranch a src k := by
  have h : 5 * 3 ^ 7 + a * 3 ^ 6 + src * 3 ^ 3 + k * 3 ^ 0 = 5 * 3 ^ 7 + a * 3 ^ 6 + src * 3 ^ 3 + k := by omega
  exact congrArg Word.ofNat h

/-- The a trit and the a field correspond (R48). -/
theorem autoOfTrit_eq_iff (t : Trit) (a : Auto) : autoOfTrit t = a ↔ t.val = a.code := by
  cases a <;> decide +revert

/-- A mode trit and a two-trit r correspond to an operand's code (R47). -/
theorem operandOf_eq_iff (m : Trit) (r : RegNum) (o : Operand) : operandOf m r = o ↔ 9 * m.val + r.val = o.code := by
  cases o <;> decide +revert

/-- The a field of a word (R48). -/
theorem aField_eq_iff (w : Word) (a : Auto) : aField w = a ↔ (trit w 6).val = a.code := autoOfTrit_eq_iff _ a

/-- The source field of a word, by the operand's code (R47). -/
theorem srcField_eq_iff (w : Word) (o : Operand) : srcField w = o ↔ slice w 5 3 = o.code := by
  rw [srcField, operandOf_eq_iff, ← slice_three_eq w 3]

/-- The destination field of a word, by the operand's code (R47). -/
theorem dstField_eq_iff (w : Word) (o : Operand) : dstField w = o ↔ slice w 2 0 = o.code := by
  rw [dstField, operandOf_eq_iff, ← slice_three_eq w 0]

/-- The word packed from an a field and two operands is the one with these fields (R46). -/
theorem pack_codes_eq_iff {op : Nat} (ho : op < 9) (a : Auto) (src dst : Operand) (w : Word) :
    pack op a.code src.code dst.code = w ↔
      slice w 8 7 = op ∧ aField w = a ∧ srcField w = src ∧ dstField w = dst := by
  rw [pack_eq_iff ho (Laws.auto_code_lt a) (Laws.operand_code_lt src) (Laws.operand_code_lt dst), aField_eq_iff,
    srcField_eq_iff, dstField_eq_iff]

/-- Trit 05 as a function field and the two-trit field after it, as the carry and shift groups have them (R51, R52). -/
theorem pack_fn_eq_iff {op a : Nat} (ho : op < 9) (ha : a < 3) (f : Trit) (r : RegNum) (dst : Operand) (w : Word) :
    pack op a (9 * f.val + r.val) dst.code = w ↔
      slice w 8 7 = op ∧ (trit w 6).val = a ∧ (trit w 5 = f ∧ twoTrits w 3 = r) ∧ dstField w = dst := by
  have hsrc : slice w 5 3 = 9 * f.val + r.val ↔ trit w 5 = f ∧ twoTrits w 3 = r := by
    have hslice : slice w 5 3 = 9 * (trit w 5).val + (twoTrits w 3).val := slice_three_eq w 3
    rw [hslice, Fin.ext_iff, Fin.ext_iff]
    omega
  rw [pack_eq_iff ho ha (by omega) (Laws.operand_code_lt dst), hsrc, dstField_eq_iff]

/-- The two-trit count field and the count determine each other (R54, R106). -/
theorem countOf_eq_iff {n : Nat} (hn : countOk n = true) (nn : RegNum) : countOf nn = n ↔ nn.val = countCode n := by
  simp only [countOf, countCode, countOk, Fin.ext_iff, Bool.and_eq_true, decide_eq_true_eq] at hn ⊢
  have h0 : (0 : RegNum).val = 0 := rfl
  split <;> split <;> omega

/-- A field always reads as a count that can be encoded (R54). -/
theorem countOk_countOf (nn : RegNum) : countOk (countOf nn) = true := by decide +revert

/-- Everything Format G can decode to, for the op value of its word (R50, R56 row 2). -/
theorem decodeG_ok_iff (mk : Auto → Operand → Operand → Instr) {op : Nat} {w : Word} (ho : op < 9)
    (hop : slice w 8 7 = op) (i : Instr) :
    decodeG mk w = .ok i ↔ ∃ a src dst, autoOk a (src.isMem || dst.isMem) = true ∧
      pack op a.code src.code dst.code = w ∧ i = mk a src dst := by
  simp only [pack_codes_eq_iff ho]
  constructor
  · intro h
    rw [decodeG] at h
    split at h
    · next hok => cases h; exact ⟨_, _, _, hok, ⟨hop, rfl, rfl, rfl⟩, rfl⟩
    · cases h
  · rintro ⟨a, src, dst, hok, ⟨-, rfl, rfl, rfl⟩, rfl⟩
    exact if_pos hok

/-- The carry-group instruction of trit 05; none for 0 (R51, R56 row 3). -/
def carryOf : Trit → Option (Auto → RegNum → Operand → Instr)
  | 0 => none
  | 1 => some .addc
  | 2 => some .subb

/-- A carry-group instruction is well formed and encoded by its parts and trit 05 (R51). -/
theorem carry_encoding {f : Trit} {mk : Auto → RegNum → Operand → Instr} (h : carryOf f = some mk) (a : Auto)
    (rs : RegNum) (dst : Operand) : (mk a rs dst).wellFormed = autoOk a dst.isMem ∧
      encode (mk a rs dst) = pack Config.opCarry a.code (9 * f.val + rs.val) dst.code := by
  fin_cases f <;> cases h <;> exact ⟨rfl, rfl⟩

theorem decodeC_of_carryOf_none {w : Word} (h : carryOf (trit w 5) = none) : decodeC w = .error .carryUnassigned := by
  have h0 : ∀ f, carryOf f = none → f = 0 := by decide
  exact if_pos (h0 _ h)

theorem decodeC_of_carryOf_some {w : Word} {mk : Auto → RegNum → Operand → Instr} (h : carryOf (trit w 5) = some mk) :
    decodeC w = if autoOk (aField w) (dstField w).isMem then .ok (mk (aField w) (twoTrits w 3) (dstField w))
      else .error .autoWithoutMemoryC := by
  rw [decodeC]
  generalize trit w 5 = f at h
  fin_cases f <;> cases h <;> rfl

/-- Everything Format C can decode to (R51, R56 rows 3 and 4). -/
theorem decodeC_ok_iff {w : Word} (hop : slice w 8 7 = Config.opCarry) (i : Instr) :
    decodeC w = .ok i ↔ ∃ f mk a rs dst, carryOf f = some mk ∧ autoOk a dst.isMem = true ∧
      pack Config.opCarry a.code (9 * f.val + rs.val) dst.code = w ∧ i = mk a rs dst := by
  simp only [pack_fn_eq_iff (op := Config.opCarry) (by decide) (Laws.auto_code_lt _), ← aField_eq_iff]
  constructor
  · intro h
    cases hmk : carryOf (trit w 5) with
    | none => rw [decodeC_of_carryOf_none hmk] at h; cases h
    | some mk =>
      rw [decodeC_of_carryOf_some hmk] at h
      split at h
      · next hok => cases h; exact ⟨_, mk, _, _, _, hmk, hok, ⟨hop, rfl, ⟨rfl, rfl⟩, rfl⟩, rfl⟩
      · cases h
  · rintro ⟨f, mk, a, rs, dst, hmk, hok, ⟨-, rfl, ⟨rfl, rfl⟩, rfl⟩, rfl⟩
    rw [decodeC_of_carryOf_some hmk]
    exact if_pos hok

/-- The shift of trit 05 (R52). -/
def shiftOf : Trit → Nat → Operand → Instr
  | 0 => .sl
  | 1 => .sru
  | 2 => .srs

/-- A shift is well formed and encoded by its count and trit 05 (R52, R54). -/
theorem shift_encoding (f : Trit) (n : Nat) (dst : Operand) : (shiftOf f n dst).wellFormed = countOk n ∧
    encode (shiftOf f n dst) = pack Config.opShift 0 (9 * f.val + countCode n) dst.code := by
  fin_cases f
  · exact ⟨rfl, congrArg (pack Config.opShift 0 · dst.code) (Nat.zero_add _).symm⟩
  · exact ⟨rfl, rfl⟩
  · exact ⟨rfl, rfl⟩

theorem decodeS_eq (w : Word) : decodeS w =
    if trit w 6 ≠ 0 then .error .shiftAuto else .ok (shiftOf (trit w 5) (countOf (twoTrits w 3)) (dstField w)) := by
  rw [decodeS]
  generalize trit w 5 = f
  fin_cases f <;> rfl

/-- The word packed for a shift is the one with its fields (R52, R54). -/
theorem pack_count_eq_iff {w : Word} (hop : slice w 8 7 = Config.opShift) (f : Trit) {n : Nat} (hn : countOk n = true)
    (dst : Operand) : pack Config.opShift 0 (9 * f.val + countCode n) dst.code = w ↔
      trit w 6 = 0 ∧ trit w 5 = f ∧ countOf (twoTrits w 3) = n ∧ dstField w = dst := by
  have hr := pack_fn_eq_iff (op := Config.opShift) (a := 0) (by decide) (by decide) f ⟨_, Laws.countCode_lt hn⟩ dst w
  rw [hr, countOf_eq_iff hn]
  simp only [hop, true_and, Fin.ext_iff, Fin.val_zero, and_assoc]

/-- Everything Format S can decode to (R52, R56 row 5). -/
theorem decodeS_ok_iff {w : Word} (hop : slice w 8 7 = Config.opShift) (i : Instr) :
    decodeS w = .ok i ↔ ∃ f n dst, countOk n = true ∧
      pack Config.opShift 0 (9 * f.val + countCode n) dst.code = w ∧ i = shiftOf f n dst := by
  rw [decodeS_eq]
  constructor
  · intro h
    split at h
    · cases h
    · next h6 =>
      cases h
      have hn := countOk_countOf (twoTrits w 3)
      exact ⟨_, _, _, hn, (pack_count_eq_iff hop _ hn _).2 ⟨not_not.1 h6, rfl, rfl, rfl⟩, rfl⟩
  · rintro ⟨f, n, dst, hn, hw, rfl⟩
    obtain ⟨h6, rfl, rfl, rfl⟩ := (pack_count_eq_iff hop f hn dst).1 hw
    exact if_neg (not_not.2 h6)

/-- The fields of a branch are those of Format B (R53). -/
theorem branchAuto_eq (w : Word) : branchAuto w = aField w := rfl

theorem branchOperand_eq (w : Word) : branchOperand w = srcField w := rfl

theorem branchCondition_eq (w : Word) : branchCondition w = slice w 2 0 := rfl

/-- The condition numbers without a branch (R55, R56 row 6). -/
theorem branchOf_eq_none_iff (k : Nat) : branchOf k = none ↔ 16 ≤ k := by
  constructor
  · intro h
    by_contra hk
    interval_cases k <;> cases h
  · intro h
    obtain ⟨n, rfl⟩ := Nat.exists_eq_add_of_le' h
    rfl

theorem branchOf_lt {k : Nat} {mk : Auto → Operand → Instr} (h : branchOf k = some mk) : k < 16 := by
  by_contra hk
  simp [(branchOf_eq_none_iff k).2 (by omega)] at h

/-- A branch is well formed and encoded by its parts and condition number (R53, R55). -/
theorem branch_encoding {k : Nat} {mk : Auto → Operand → Instr} (h : branchOf k = some mk) (a : Auto) (src : Operand) :
    (mk a src).wellFormed = autoOk a src.isMem ∧ encode (mk a src) = packBranch a.code src.code k := by
  have hk := branchOf_lt h
  interval_cases k <;> cases h <;> exact ⟨rfl, rfl⟩

/-- The word packed for a branch is the one with its fields (R53). -/
theorem packBranch_eq_iff {w : Word} (hop : slice w 8 7 = Config.opBranch) (a : Auto) (src : Operand) {k : Nat}
    (hk : k < 16) : packBranch a.code src.code k = w ↔ slice w 2 0 = k ∧ aField w = a ∧ srcField w = src := by
  rw [packBranch_eq_pack, pack_eq_iff (by decide) (Laws.auto_code_lt a) (Laws.operand_code_lt src) (by omega),
    aField_eq_iff, srcField_eq_iff]
  constructor
  · rintro ⟨-, ha, hs, hcond⟩
    exact ⟨hcond, ha, hs⟩
  · rintro ⟨hcond, ha, hs⟩
    exact ⟨hop, ha, hs, hcond⟩

/-- Everything Format B can decode to (R53, R55, R56 rows 6 and 7). -/
theorem decodeB_ok_iff {w : Word} (hop : slice w 8 7 = Config.opBranch) (i : Instr) :
    decodeB w = .ok i ↔ ∃ k mk a src, branchOf k = some mk ∧ autoOk a src.isMem = true ∧
      packBranch a.code src.code k = w ∧ i = mk a src := by
  rw [decodeB, branchCondition_eq, branchAuto_eq, branchOperand_eq]
  constructor
  · intro h
    split at h
    · cases h
    · next mk hmk =>
      split at h
      · next hok =>
        cases h
        exact ⟨_, mk, _, _, hmk, hok, (packBranch_eq_iff hop _ _ (branchOf_lt hmk)).2 ⟨rfl, rfl, rfl⟩, rfl⟩
      · cases h
  · rintro ⟨k, mk, a, src, hmk, hok, hw, rfl⟩
    obtain ⟨rfl, rfl, rfl⟩ := (packBranch_eq_iff hop a src (branchOf_lt hmk)).1 hw
    simp [hmk, hok]

/-- The decoder of an op value (R49, R57). -/
def groupDecoder : Nat → Word → Except Reserved Instr
  | 0 => decodeG .move
  | 1 => decodeG .add
  | 2 => decodeG .sub
  | 3 => decodeC
  | 4 => decodeS
  | 5 => decodeB
  | _ => fun _ => .error .opUnassigned

/-- A word is decoded by the group of its op field (R57). -/
theorem decode_eq_groupDecoder (w : Word) : decode w = groupDecoder (slice w 8 7) w := by
  rw [decode, Config.opCarry, Config.opShift, Config.opBranch]
  generalize slice w 8 7 = op
  match op with
  | 0 | 1 | 2 | 3 | 4 | 5 => rfl
  | n + 6 => simp [groupDecoder]

/-- What its group's decoder answers is what a word decodes to (R57). -/
theorem decode_of_op {w : Word} {op : Nat} {r : Except Reserved Instr} (hop : slice w 8 7 = op)
    (h : groupDecoder op w = r) : decode w = r := by
  rw [decode_eq_groupDecoder, hop, h]

/-- A branch's word decodes to the branch (R53, R55). -/
theorem decode_packBranch {k : Nat} {mk : Auto → Operand → Instr} (hk : branchOf k = some mk) {a : Auto} {src : Operand}
    (hok : autoOk a src.isMem = true) : decode (packBranch a.code src.code k) = .ok (mk a src) := by
  have hlt := branchOf_lt hk
  have hop := Laws.slice_packBranch_op (Laws.auto_code_lt a) (Laws.operand_code_lt src) (show k < 27 by omega)
  exact decode_of_op hop ((decodeB_ok_iff hop _).2 ⟨k, mk, a, src, hk, hok, rfl, rfl⟩)

/-- A carry-group word decodes to its instruction (R51). -/
theorem decode_carry {f : Trit} {mk : Auto → RegNum → Operand → Instr} (hf : carryOf f = some mk) {a : Auto}
    {rs : RegNum} {dst : Operand} (hok : autoOk a dst.isMem = true) :
    decode (pack Config.opCarry a.code (9 * f.val + rs.val) dst.code) = .ok (mk a rs dst) := by
  have hop := Laws.slice_pack_op (op := Config.opCarry) (by decide) (Laws.auto_code_lt a)
    (show 9 * f.val + rs.val < 27 by omega) (Laws.operand_code_lt dst)
  exact decode_of_op hop ((decodeC_ok_iff hop _).2 ⟨f, mk, a, rs, dst, hf, hok, rfl, rfl⟩)

/-- A shift's word decodes to the shift (R52). -/
theorem decode_encode_shift (f : Trit) {n : Nat} (hn : countOk n = true) (dst : Operand) :
    decode (encode (shiftOf f n dst)) = .ok (shiftOf f n dst) := by
  obtain ⟨-, hw⟩ := shift_encoding f n dst
  have hlt := Laws.countCode_lt hn
  have hop := Laws.slice_pack_op (op := Config.opShift) (a := 0) (by decide) (by decide)
    (show 9 * f.val + countCode n < 27 by omega) (Laws.operand_code_lt dst)
  rw [hw]
  exact decode_of_op hop ((decodeS_ok_iff hop _).2 ⟨f, n, dst, hn, rfl, rfl⟩)

/-- A Format G word decodes to its group's instruction (R50). -/
theorem decode_pack_codes {op : Nat} {mk : Auto → Operand → Operand → Instr} (ho : op < 9)
    (hmk : groupDecoder op = decodeG mk) {a : Auto} {src dst : Operand}
    (hok : autoOk a (src.isMem || dst.isMem) = true) :
    decode (pack op a.code src.code dst.code) = .ok (mk a src dst) := by
  have hop := Laws.slice_pack_op ho (Laws.auto_code_lt a) (Laws.operand_code_lt src) (Laws.operand_code_lt dst)
  exact decode_of_op hop (hmk ▸ (decodeG_ok_iff mk ho hop _).2 ⟨a, src, dst, hok, rfl, rfl⟩)

/-- Settles O1: in each format the packed fields read back as the operands they were made of. -/
theorem decodeOfEncode : Obligations.DecodeOfEncode := by
  intro i h
  cases i with
  | move a src dst => exact decode_pack_codes (by decide) rfl h
  | add a src dst => exact decode_pack_codes (by decide) rfl h
  | sub a src dst => exact decode_pack_codes (by decide) rfl h
  | addc a rs dst => exact decode_carry (f := 1) rfl h
  | subb a rs dst => exact decode_carry (f := 2) rfl h
  | sl n dst => exact decode_encode_shift 0 h dst
  | sru n dst => exact decode_encode_shift 1 h dst
  | srs n dst => exact decode_encode_shift 2 h dst
  | _ => exact decode_packBranch rfl h

/-- Settles O2: what each format decodes to is packed from the fields of the word. -/
theorem encodeOfDecode : Obligations.EncodeOfDecode := by
  intro w i h
  rw [decode_eq_groupDecoder] at h
  generalize hop : slice w 8 7 = op at h
  match op with
  | 0 | 1 | 2 =>
    obtain ⟨a, src, dst, hok, hw, rfl⟩ := (decodeG_ok_iff _ (by decide) hop i).1 h
    exact ⟨hok, hw⟩
  | 3 =>
    obtain ⟨f, mk, a, rs, dst, hmk, hok, hw, rfl⟩ := (decodeC_ok_iff hop i).1 h
    obtain ⟨hwf, henc⟩ := carry_encoding hmk a rs dst
    exact ⟨hwf.trans hok, henc.trans hw⟩
  | 4 =>
    obtain ⟨f, n, dst, hn, hw, rfl⟩ := (decodeS_ok_iff hop i).1 h
    obtain ⟨hwf, henc⟩ := shift_encoding f n dst
    exact ⟨hwf.trans hn, henc.trans hw⟩
  | 5 =>
    obtain ⟨k, mk, a, src, hmk, hok, hw, rfl⟩ := (decodeB_ok_iff hop i).1 h
    obtain ⟨hwf, henc⟩ := branch_encoding hmk a src
    exact ⟨hwf.trans hok, henc.trans hw⟩
  | n + 6 => cases h

/-- A word decodes to exactly the well-formed instruction that it encodes (R57). -/
theorem decode_ok_iff (w : Word) (i : Instr) : decode w = .ok i ↔ i.wellFormed = true ∧ encode i = w := by
  constructor
  · exact encodeOfDecode w i
  · rintro ⟨hwf, rfl⟩
    exact decodeOfEncode i hwf

/-- Settles O4: each word is the encoding of its row's instruction. -/
theorem workedEncodingsDecode : Obligations.WorkedEncodingsDecode := by
  refine ⟨?_, ?_, ?_, ?_, ?_, ?_, ?_, ?_, ?_, ?_, ?_, ?_, ?_, ?_, ?_, ?_, ?_, ?_⟩ <;>
    exact (decode_ok_iff _ _).2 ⟨rfl, rfl⟩

end Sys2Proof

/-! The reserved words, by their trits (30_encoding.md R56). -/

namespace Sys2Proof

/-- The group that the two trits of the op field select (R49, R57). -/
theorem decode_group_cases (w : Word) :
    (trit w 8 = 0 ∧ ∃ mk, decode w = decodeG mk w) ∨ (trit w 8 = 1 ∧ trit w 7 = 0 ∧ decode w = decodeC w) ∨
      (trit w 8 = 1 ∧ trit w 7 = 1 ∧ decode w = decodeS w) ∨ (trit w 8 = 1 ∧ trit w 7 = 2 ∧ decode w = decodeB w) ∨
      (trit w 8 = 2 ∧ decode w = .error .opUnassigned) := by
  rw [decode_eq_groupDecoder, slice_op_eq]
  generalize trit w 8 = t8, trit w 7 = t7
  match t8, t7 with
  | 0, 0 => exact .inl ⟨rfl, .move, rfl⟩
  | 0, 1 => exact .inl ⟨rfl, .add, rfl⟩
  | 0, 2 => exact .inl ⟨rfl, .sub, rfl⟩
  | 1, 0 => exact .inr (.inl ⟨rfl, rfl, rfl⟩)
  | 1, 1 => exact .inr (.inr (.inl ⟨rfl, rfl, rfl⟩))
  | 1, 2 => exact .inr (.inr (.inr (.inl ⟨rfl, rfl, rfl⟩)))
  | 2, 0 | 2, 1 | 2, 2 => exact .inr (.inr (.inr (.inr ⟨rfl, rfl⟩)))

/-- An a field may not be set exactly where it is set and no operand is in memory mode (R48, R56). -/
theorem autoOk_eq_false_iff (a : Auto) (m : Bool) : autoOk a m = false ↔ a ≠ .plain ∧ m = false := by
  cases a <;> simp [autoOk]

theorem aField_eq_plain_iff (w : Word) : aField w = .plain ↔ trit w 6 = 0 :=
  (aField_eq_iff w .plain).trans (Fin.ext_iff (b := 0)).symm

theorem operandOf_isMem (m : Trit) (r : RegNum) : (operandOf m r).isMem = false ↔ m ≠ 2 := by
  decide +revert

theorem srcField_isMem (w : Word) : (srcField w).isMem = false ↔ trit w 5 ≠ 2 := operandOf_isMem _ _

theorem dstField_isMem (w : Word) : (dstField w).isMem = false ↔ trit w 2 ≠ 2 := operandOf_isMem _ _

/-- The words that Format G rejects (R56 row 2). -/
theorem decodeG_error_iff (mk : Auto → Operand → Operand → Instr) (w : Word) (r : Reserved) :
    decodeG mk w = .error r ↔ r = .autoWithoutMemoryG ∧ trit w 6 ≠ 0 ∧ trit w 5 ≠ 2 ∧ trit w 2 ≠ 2 := by
  have hauto : autoOk (aField w) ((srcField w).isMem || (dstField w).isMem) = false ↔
      trit w 6 ≠ 0 ∧ trit w 5 ≠ 2 ∧ trit w 2 ≠ 2 := by
    rw [autoOk_eq_false_iff, Bool.or_eq_false_iff, Ne, aField_eq_plain_iff, srcField_isMem, dstField_isMem]
  rw [← hauto, decodeG]
  split
  · next hok => simp [hok]
  · next hok => simp [hok, @eq_comm _ r]

/-- The words that Format C rejects, an unassigned function before a set a field (R56 rows 3 and 4). -/
theorem decodeC_error_iff (w : Word) (r : Reserved) :
    decodeC w = .error r ↔ (r = .carryUnassigned ∧ trit w 5 = 0) ∨
      (r = .autoWithoutMemoryC ∧ trit w 5 ≠ 0 ∧ trit w 6 ≠ 0 ∧ trit w 2 ≠ 2) := by
  have hauto : autoOk (aField w) (dstField w).isMem = false ↔ trit w 6 ≠ 0 ∧ trit w 2 ≠ 2 := by
    rw [autoOk_eq_false_iff, Ne, aField_eq_plain_iff, dstField_isMem]
  have hnone : ∀ f, carryOf f = none ↔ f = 0 := by decide
  rw [← hauto, Ne, ← hnone]
  cases hmk : carryOf (trit w 5) with
  | none => simp [decodeC_of_carryOf_none hmk, @eq_comm _ r]
  | some mk =>
    rw [decodeC_of_carryOf_some hmk]
    split
    · next hok => simp [hok]
    · next hok => simp [hok, @eq_comm _ r]

/-- The words that Format S rejects (R56 row 5). -/
theorem decodeS_error_iff (w : Word) (r : Reserved) : decodeS w = .error r ↔ r = .shiftAuto ∧ trit w 6 ≠ 0 := by
  rw [decodeS_eq]
  split
  · next h6 => simp [h6, @eq_comm _ r]
  · next h6 => simp [h6]

/-- The words that Format B rejects, an unassigned condition before a set a field (R56 rows 6 and 7). -/
theorem decodeB_error_iff (w : Word) (r : Reserved) :
    decodeB w = .error r ↔ (r = .conditionUnassigned ∧ 16 ≤ slice w 2 0) ∨
      (r = .autoWithoutMemoryB ∧ slice w 2 0 < 16 ∧ trit w 6 ≠ 0 ∧ trit w 5 ≠ 2) := by
  have hauto : autoOk (aField w) (srcField w).isMem = false ↔ trit w 6 ≠ 0 ∧ trit w 5 ≠ 2 := by
    rw [autoOk_eq_false_iff, Ne, aField_eq_plain_iff, srcField_isMem]
  rw [← hauto, ← not_le, ← branchOf_eq_none_iff, decodeB, branchCondition_eq, branchAuto_eq, branchOperand_eq]
  cases hmk : branchOf (slice w 2 0) with
  | none => simp [@eq_comm _ r]
  | some mk =>
    cases hok : autoOk (aField w) (srcField w).isMem with
    | false => simp [@eq_comm _ r]
    | true => simp

/-- The lowest three trits as a number. -/
theorem slice_low_eq (w : Word) : slice w 2 0 = 9 * (trit w 2).val + 3 * (trit w 1).val + (trit w 0).val := by
  have h : u w / 3 ^ 0 % 3 ^ 3 = 9 * (u w / 3 ^ 2 % 3) + 3 * (u w / 3 ^ 1 % 3) + u w / 3 ^ 0 % 3 := by omega
  exact h

/-- Settles O3: the op field selects the group, and each group's rejected words are those of its rows. -/
theorem reservedWordsAreTheSevenRows : Obligations.ReservedWordsAreTheSevenRows := by
  intro w
  rw [← slice_low_eq]
  obtain ⟨h8, mk, hd⟩ | ⟨h8, h7, hd⟩ | ⟨h8, h7, hd⟩ | ⟨h8, h7, hd⟩ | ⟨h8, hd⟩ := decode_group_cases w
  · simp [h8, hd, decodeG_error_iff]
  · simp [h8, h7, hd, decodeC_error_iff]
  · simp [h8, h7, hd, decodeS_error_iff]
  · simp [h8, h7, hd, decodeB_error_iff]
  · simp [h8, hd]

end Sys2Proof

/-! Where pc is after an instruction (30_encoding.md R58, 40_operands.md R70, R79). -/

namespace Sys2Proof.Machine

/-- A constant or register operand has no immediate word (R58). -/
theorem immediateWords_const (a : Auto) (k : RegNum) : immediateWords a (.const k) = 0 := by simp [immediateWords]

theorem immediateWords_reg (a : Auto) (r : RegNum) : immediateWords a (.reg r) = 0 := by simp [immediateWords]

theorem u_mod (w : Word) : u w % 19683 = u w := Nat.mod_eq_of_lt w.isLt

/-- The auto-modification of a memory operand's register moves pc over its immediate word, if it has one (R58, R71). -/
theorem setReg_registerAfter_pc {a : Auto} {r : RegNum} (s : State) (h : a = .dec → Operand.mem r ≠ .mem 0) :
    u (s.setReg r (registerAfter a (s.reg r))).pc = (u s.pc + immediateWords a (.mem r)) % 19683 := by
  by_cases hr : r = 0
  · subst hr
    rw [State.pc, State.reg_setReg_same]
    cases a with
    | plain => exact (u_mod s.pc).symm
    | inc => rfl
    | dec => exact absurd rfl (h rfl)
  · have hwords : immediateWords a (.mem r) = 0 := by simp [immediateWords, hr]
    rw [hwords, State.pc, State.reg_setReg_ne s _ (Ne.symm hr)]
    exact (u_mod s.pc).symm

/-- A source operand moves pc over its immediate word, if it has one (R58, R73). -/
theorem SourceIs.pc_eq {a : Auto} {o : Operand} {s s' : State} {v : Word} (hs : SourceIs a o s v s')
    (h : a = .dec → o ≠ .mem 0) : u s'.pc = (u s.pc + immediateWords a o) % 19683 := by
  cases o with
  | const k => rw [hs.2, immediateWords_const, Nat.add_zero, u_mod]
  | reg r => rw [hs.2, immediateWords_reg, Nat.add_zero, u_mod]
  | mem r => obtain ⟨-, -, rfl⟩ := hs; exact setReg_registerAfter_pc s h

/-- A destination that is not pc moves pc over its immediate word, if it has one (R58, R75). -/
theorem destAfter_pc {a : Auto} {o : Operand} (s : State) (w : Word) (cc : CC) (hreg : o ≠ .reg 0)
    (h : a = .dec → o ≠ .mem 0) : u (destAfter a o s w cc).pc = (u s.pc + immediateWords a o) % 19683 := by
  cases o with
  | const k =>
    rw [immediateWords_const, Nat.add_zero, u_mod]
    rfl
  | reg r =>
    have hpc : (destAfter a (.reg r) s w cc).pc = s.pc :=
      destAfter_reg_eq s w cc (by simpa [dstRegs, eq_comm] using hreg)
    rw [hpc, immediateWords_reg, Nat.add_zero, u_mod]
  | mem r => exact setReg_registerAfter_pc { s with cc := cc, mem := s.mem.store (u (operandAddr a r s)) w } h

/-- move, add and sub leave pc after the immediate words of both operands (R58, R79). -/
theorem exec_move_add_sub_pc {i : Instr} {a : Auto} {src dst : Operand} {s t : State}
    (hi : i = .move a src dst ∨ i = .add a src dst ∨ i = .sub a src dst) (hm : mayMovePc i = false)
    (h : exec i s = .next t) : u t.pc + 1 ≡ u s.pc + i.length [MOD 19683] := by
  have hlen : i.length = 1 + immediateWords a src + immediateWords a dst := by
    obtain rfl | rfl | rfl := hi <;> rfl
  have hmove : (dst == .reg 0 || a == .dec && (src == .mem 0 || dst == .mem 0)) = false := by
    obtain rfl | rfl | rfl := hi <;> exact hm
  obtain ⟨hreg, hdec⟩ : dst ≠ .reg 0 ∧ (a = .dec → src ≠ .mem 0 ∧ dst ≠ .mem 0) := by simpa using hmove
  obtain ⟨v, s', w, cc, hs, rfl⟩ := exec_move_add_sub_next hi h
  have hsrc := hs.pc_eq fun ha => (hdec ha).1
  have hdst := destAfter_pc s' w cc hreg fun ha => (hdec ha).2
  rw [Nat.ModEq, hlen, hdst, hsrc]
  omega

/-- An instruction with a destination alone leaves pc after the destination's immediate word (R58, R79). -/
theorem modifyDst_pc {compute : Word → Computed} {a : Auto} {dst : Operand} {s t : State}
    (hm : (dst == .reg 0 || a == .dec && dst == .mem 0) = false) (h : modifyDst compute a dst s = .ok t) :
    u t.pc + 1 ≡ u s.pc + (1 + immediateWords a dst) [MOD 19683] := by
  obtain ⟨hreg, hdec⟩ : dst ≠ .reg 0 ∧ (a = .dec → dst ≠ .mem 0) := by simpa using hm
  obtain ⟨d, -, rfl⟩ := (modifyDst_ok_iff compute a dst s t).1 h
  have hdst := destAfter_pc s (compute d).result (compute d).cc hreg hdec
  rw [Nat.ModEq, hdst]
  omega

/-- An instruction that does not move pc itself leaves it, counted from its own word, after all its words (R58). -/
theorem exec_pc {i : Instr} {s t : State} (hm : mayMovePc i = false) (h : exec i s = .next t) :
    u t.pc + 1 ≡ u s.pc + i.length [MOD 19683] := by
  have hshift : ∀ dst : Operand, (dst == .reg 0) = false →
      (dst == .reg 0 || Auto.plain == .dec && dst == .mem 0) = false := fun dst hd => by simp [hd]
  cases i with
  | move a src dst => exact exec_move_add_sub_pc (.inl rfl) hm h
  | add a src dst => exact exec_move_add_sub_pc (.inr (.inl rfl)) hm h
  | sub a src dst => exact exec_move_add_sub_pc (.inr (.inr rfl)) hm h
  | addc a rs dst => exact modifyDst_pc hm ((outcomeOf_next_iff _ _).1 h)
  | subb a rs dst => exact modifyDst_pc hm ((outcomeOf_next_iff _ _).1 h)
  | sl n dst => exact modifyDst_pc (hshift dst hm) ((outcomeOf_next_iff _ _).1 h)
  | sru n dst => exact modifyDst_pc (hshift dst hm) ((outcomeOf_next_iff _ _).1 h)
  | srs n dst => exact modifyDst_pc (hshift dst hm) ((outcomeOf_next_iff _ _).1 h)
  | _ => cases hm

/-- Settles O6: the fetch steps pc over the instruction's word, and the operands over the words after it. -/
theorem pcAdvancesByLength : Obligations.PcAdvancesByLength := by
  intro s t ir i hw hi hm h
  obtain ⟨ir', i', -, hw', hi', he⟩ := (step_next_iff s t).1 h
  obtain rfl : ir = ir' := Option.some.inj (hw.symm.trans hw')
  obtain rfl : i = i' := Except.ok.inj (hi.symm.trans hi')
  have hfetch : u (s.setReg 0 (inc s.pc)).pc = (u s.pc + 1) % 19683 := by
    rw [State.pc, State.reg_setReg_same]
    rfl
  have hexec := exec_pc hm he
  rw [hfetch, Nat.ModEq] at hexec
  have ht := u_le_maxu t.pc
  change u t.pc = (u s.pc + i.length) % 19683
  omega

end Sys2Proof.Machine

/-! An out-of-range constant as an operand of a statement (30_encoding.md R65). -/

namespace Sys2Proof.Asm

/-- A destination is in memory mode exactly where it is written so (R60). -/
theorem destination_isMem {env : Env} {dot : Word} {d : Written} {dst : Operand} (h : destination env dot d = .ok dst) :
    d.isMem = dst.isMem := by
  cases d with
  | discard => cases h; rfl
  | reg r => cases h; rfl
  | ind r => cases h; rfl
  | count n => cases h
  | const e =>
    rw [destination] at h
    split at h
    · cases h
    · split at h
      · cases h; rfl
      · cases h

/-- A constant outside 0..8 is no destination (R65). -/
theorem destination_outOfRange {env : Env} {dot : Word} {e : Expr} {n : Int} (he : Expr.eval env dot e = .ok n)
    (hn : n < 0 ∨ 8 < n) : destination env dot (.const e) = .error .dstConstant := by
  have hrange : ¬(0 ≤ n ∧ n ≤ 8) := by omega
  simp [destination, he, hrange]

/-- A constant outside 0..8 is a source only as an immediate, where a = 1 can be set for it (R65). -/
theorem source_outOfRange {env : Env} {dot : Word} {e : Expr} {n : Int} (he : Expr.eval env dot e = .ok n)
    (hn : n < 0 ∨ 8 < n) (hmax : n ≤ 19682) (a : Auto) (dstMem : Bool) :
    source env dot a dstMem (.const e) =
      if a = .inc ∨ (a = .plain ∧ dstMem = false) then .ok (.inc, .mem 0, [Word.ofInt n])
      else .error .immediateImpossible := by
  have hrange : ¬(0 ≤ n ∧ n ≤ 8) := by omega
  have hword : wordOf n = .ok (Word.ofInt n) := if_pos hmax
  simp [source, he, hrange, hword]

/-- move, add and sub with an out-of-range source constant (R65). -/
theorem emitG_outOfRange {env : Env} {dot : Word} {e : Expr} {n : Int} (he : Expr.eval env dot e = .ok n)
    (hn : n < 0 ∨ 8 < n) (hmax : n ≤ 19682) (a : Auto) {mk : Auto → Operand → Operand → Instr} {d : Written}
    {dst : Operand} (hd : destination env dot d = .ok dst) (hwf : (mk .inc (.mem 0) dst).wellFormed = true) :
    emitG mk env dot a [.const e, d] =
      if a = .inc ∨ (a = .plain ∧ dst.isMem = false) then .ok [encode (mk .inc (.mem 0) dst), Word.ofInt n]
      else .error .immediateImpossible := by
  rw [emitG, source_outOfRange he hn hmax, destination_isMem hd, hd]
  by_cases ha : a = .inc ∨ (a = .plain ∧ dst.isMem = false)
  · simp [ha, emit, hwf]
  · simp [ha]

/-- A branch with an out-of-range constant as its operand (R65). -/
theorem emitB_outOfRange {env : Env} {dot : Word} {e : Expr} {n : Int} (he : Expr.eval env dot e = .ok n)
    (hn : n < 0 ∨ 8 < n) (hmax : n ≤ 19682) (a : Auto) {mk : Auto → Operand → Instr}
    (hwf : (mk .inc (.mem 0)).wellFormed = true) :
    emitB mk env dot a [.const e] =
      if a = .dec then .error .immediateImpossible else .ok [encode (mk .inc (.mem 0)), Word.ofInt n] := by
  rw [emitB, source_outOfRange he hn hmax]
  cases a with
  | plain => simp [emit, hwf]
  | inc => simp [emit, hwf]
  | dec => simp

/-- The names of the branches are in the order of their condition numbers, and no other instruction has them (R55). -/
theorem emitOp_of_branchName {k : Nat} {name : List Char} {mk : Auto → Operand → Instr}
    (hname : branchNames[k]? = some name) (hmk : branchOf k = some mk) (env : Env) (dot : Word) (a : Auto)
    (ops : List Written) : emitOp env dot name a ops = emitB mk env dot a ops := by
  have hk := branchOf_lt hmk
  interval_cases k <;> cases hname <;> cases hmk <;> rfl

/-- A statement is emitted in the format of its mnemonic (R50 to R55). -/
theorem emitOp_cases (env : Env) (dot : Word) (name : List Char) (a : Auto) (ops : List Written) :
    (∃ mk, emitOp env dot name a ops = emitG mk env dot a ops) ∨
      (∃ mk, emitOp env dot name a ops = emitC mk env dot a ops) ∨
      (∃ mk, emitOp env dot name a ops = emitS mk env dot a ops) ∨
      (∃ mk, emitOp env dot name a ops = emitB mk env dot a ops) ∨
      emitOp env dot name a ops = .error .unknownMnemonic := by
  generalize h : emitOp env dot name a ops = r
  rw [emitOp] at h
  split at h
  · exact .inl ⟨_, h.symm⟩
  split at h
  · exact .inl ⟨_, h.symm⟩
  split at h
  · exact .inl ⟨_, h.symm⟩
  split at h
  · exact .inr (.inl ⟨_, h.symm⟩)
  split at h
  · exact .inr (.inl ⟨_, h.symm⟩)
  split at h
  · exact .inr (.inr (.inl ⟨_, h.symm⟩))
  split at h
  · exact .inr (.inr (.inl ⟨_, h.symm⟩))
  split at h
  · exact .inr (.inr (.inl ⟨_, h.symm⟩))
  split at h
  · next mk _ => exact .inr (.inr (.inr (.inl ⟨mk, h.symm⟩)))
  · exact .inr (.inr (.inr (.inr h.symm)))

/-- A second operand that is no destination leaves a statement without words, whatever its mnemonic. -/
theorem emitOp_ne_ok_of_destination {env : Env} {dot : Word} {d : Written} {x : AsmError}
    (hd : destination env dot d = .error x) (name : List Char) (a : Auto) (w : Written) (ws : List Word) :
    emitOp env dot name a [w, d] ≠ .ok ws := by
  have hG : ∀ mk, emitG mk env dot a [w, d] ≠ .ok ws := fun mk => by
    cases hs : source env dot a d.isMem w <;> simp [emitG, hs, hd]
  have hC : ∀ mk, emitC mk env dot a [w, d] ≠ .ok ws := fun mk => by
    cases w <;> simp [emitC, hd]
  have hS : ∀ mk, emitS mk env dot a [w, d] ≠ .ok ws := fun mk => by
    cases w with
    | count n =>
      rw [emitS, hd]
      split
      · simp
      · split <;> simp
    | _ => simp [emitS]
  have hB : ∀ mk, emitB mk env dot a [w, d] ≠ .ok ws := fun mk => by simp [emitB]
  obtain ⟨mk, hop⟩ | ⟨mk, hop⟩ | ⟨mk, hop⟩ | ⟨mk, hop⟩ | hop := emitOp_cases env dot name a [w, d]
  · exact hop ▸ hG mk
  · exact hop ▸ hC mk
  · exact hop ▸ hS mk
  · exact hop ▸ hB mk
  · simp [hop]

/-- Settles O60: a source constant out of range is an immediate where a = 1 can be set, and no register, count or
destination. -/
theorem outOfRangeConstantIsImmediate : Obligations.OutOfRangeConstantIsImmediate := by
  intro env dot e n a he hn hmax
  refine ⟨fun name mk d dst hname hd => ?_, fun k name mk hname hmk => ?_, fun name d hname => ?_,
    fun name w ws => emitOp_ne_ok_of_destination (destination_outOfRange he hn) name a w ws⟩
  · obtain ⟨rfl, rfl⟩ | ⟨rfl, rfl⟩ | ⟨rfl, rfl⟩ := hname
    · exact emitG_outOfRange he hn hmax a hd rfl
    · exact emitG_outOfRange he hn hmax a hd rfl
    · exact emitG_outOfRange he hn hmax a hd rfl
  · rw [emitOp_of_branchName hname hmk]
    exact emitB_outOfRange he hn hmax a ((branch_encoding hmk .inc (.mem 0)).1.trans rfl)
  · obtain rfl | rfl | rfl | rfl | rfl := hname
    · rfl
    · rfl
    · rfl
    · rfl
    · rfl

end Sys2Proof.Asm

/-! The results of add, sub, addc and subb as arithmetic, and constant mode (40_operands.md R72, 41_move_add_sub.md R86, R87,
42_carry.md R95, R96). -/

namespace Sys2Proof.Machine

@[simp] theorem u_zext (k : RegNum) : u (zext k) = k.val := (zext_iff k _).2 rfl

theorem u_inc (w : Word) : u (inc w) = (u w + 1) % 19683 := rfl

theorem u_dec (w : Word) : (u (dec w) : Int) = ((u w : Int) - 1) % 19683 := by
  change (((((u w : Int) - 1) % 19683).toNat % 19683 : Nat) : Int) = _
  omega

/-- The addresses that inc and dec step between are neighbours, also at the wrap (R7, D2). -/
@[simp] theorem dec_inc (w : Word) : dec (inc w) = w := by
  have hw := u_le_maxu w
  have hi := u_inc w
  have hd := u_dec (inc w)
  apply Fin.ext
  change u (dec (inc w)) = u w
  omega

@[simp] theorem inc_dec (w : Word) : inc (dec w) = w := by
  have hw := u_le_maxu w
  have hd := u_dec w
  have hi := u_inc (dec w)
  apply Fin.ext
  change u (inc (dec w)) = u w
  omega

theorem u_computeAdd (d v : Word) : u (computeAdd d v).result = (u d + u v) % 19683 := rfl

theorem u_computeSub (d v : Word) : (u (computeSub d v).result : Int) = ((u d : Int) - u v) % 19683 := by
  have hv := u_le_maxu v
  change (((u d + (19682 - u v) + 1) % 19683 : Nat) : Int) = _
  omega

/-- The carry of sub is 1 exactly when nothing is borrowed (R87). -/
theorem computeSub_c (d v : Word) : (computeSub d v).cc.c = if u v ≤ u d then 1 else 0 := by
  have hd := u_le_maxu d
  have hv := u_le_maxu v
  apply Fin.ext
  change (u d + (19682 - u v) + 1) / 19683 % 3 = _
  split
  · change _ = 1; omega
  · change _ = 0; omega

theorem u_computeAddc (d v : Word) (c : Trit) : u (computeAddc d v c).result = (u d + u v + c.val) % 19683 := rfl

theorem u_computeSubb (d v : Word) (c : Trit) :
    (u (computeSubb d v c).result : Int) = ((u d : Int) - u v - (1 - (c.val : Int))) % 19683 := by
  have hv := u_le_maxu v
  change (((u d + (19682 - u v) + c.val) % 19683 : Nat) : Int) = _
  omega

theorem u_computeSl (n : Nat) (d : Word) : u (computeSl n d).result = u d * 3 ^ n % 19683 := rfl

theorem u_computeSru (n : Nat) (d : Word) : u (computeSru n d).result = u d / 3 ^ n :=
  Nat.mod_eq_of_lt (Nat.lt_of_le_of_lt (Nat.div_le_self _ _) d.isLt)

/-- A word that is not negative is shifted right alike by srs and sru (R103). -/
theorem srsResult_of_nonneg (n : Nat) {d : Word} (hd : u d ≤ 9841) : srsResult n d = (computeSru n d).result := by
  rw [srsResult, if_pos hd]
  rfl

/-- A constant as destination is the second source, and cc alone is written (R72). -/
theorem modifyDst_const (compute : Word → Computed) (a : Auto) (k : RegNum) (s : State) :
    outcomeOf (modifyDst compute a (.const k) s) = .next (s.setCC (compute (zext k)).cc) :=
  (outcomeOf_next_iff _ _).2 (modifyDst_of_destIs compute (u_zext k))

theorem formatG_const (compute : Word → Word → Computed) {a : Auto} {src : Operand} (k : RegNum) {s s' : State} {v : Word}
    (hs : SourceIs a src s v s') :
    outcomeOf (formatG compute a src (.const k) s) = .next (s'.setCC (compute (zext k) v).cc) :=
  (outcomeOf_next_iff _ _).2 (formatG_of compute hs (u_zext k))

theorem formatC_const (compute : Word → Word → Trit → Computed) (a : Auto) (rs k : RegNum) (s : State) :
    outcomeOf (formatC compute a rs (.const k) s) = .next (s.setCC (compute (zext k) (s.reg rs) s.cc.c).cc) :=
  modifyDst_const _ a k s

/-- move with a readable source and a writable destination (R85). -/
theorem execMove_of {a : Auto} {src dst : Operand} {s s' : State} {v : Word} (hs : SourceIs a src s v s')
    (hd : DestWritable a dst s') : execMove a src dst s = .next (destAfter a dst s' v ⟨sign3 v, 0, 0⟩) :=
  (execMove_next_iff a src dst s _).2 ⟨v, s', hs, hd, rfl⟩

/-- A move to a register runs, leaves the source's value there, and writes no other register (R85). -/
theorem move_to_reg {a : Auto} {src : Operand} {s s' : State} {v : Word} (hs : SourceIs a src s v s') (q : RegNum) :
    ∃ t, exec (.move a src (.reg q)) s = .next t ∧ t.reg q = v ∧ ∀ r, r ≠ q → t.reg r = s'.reg r :=
  ⟨_, execMove_of hs trivial, State.reg_setReg_same _ q v, fun _ hr => State.reg_setReg_ne _ v hr⟩

/-- An add to a register runs, and leaves the sum with what the source phase left in it (R77, R86). -/
theorem add_to_reg {a : Auto} {src : Operand} {s s' : State} {v : Word} (hs : SourceIs a src s v s') (q : RegNum) :
    ∃ t, exec (.add a src (.reg q)) s = .next t ∧ u (t.reg q) = (u (s'.reg q) + u v) % 19683 :=
  ⟨_, (outcomeOf_next_iff _ _).2 (formatG_of computeAdd hs rfl), by
    rw [destAfter, State.reg_setReg_same, u_computeAdd]⟩

/-- Settles O12: a constant destination gives the second source and takes nothing but cc, so each result is the computation's. -/
theorem constantMode : Obligations.ConstantMode := by
  intro a src k j rs n s s' v hs _ _
  refine ⟨?_, execMove_of hs trivial, ?_, ?_, ?_, ?_, ?_, ?_, ?_⟩
  · obtain ⟨t, he, ht, -⟩ := move_to_reg (a := .plain) (src := .const k) (s := s) ⟨u_zext k, rfl⟩ j
    exact ⟨t, he, by rw [ht, u_zext]⟩
  · exact ⟨(computeAdd (zext k) v).result, _, formatG_const computeAdd k hs, by rw [u_computeAdd, u_zext], rfl⟩
  · exact ⟨(computeSub (zext k) v).result, _, formatG_const computeSub k hs, by rw [u_computeSub, u_zext]; rfl, rfl,
      by rw [computeSub_c, u_zext]⟩
  · exact ⟨(computeAddc (zext k) (s.reg rs) s.cc.c).result, _, formatC_const computeAddc a rs k s,
      fun _ => by rw [u_computeAddc, u_zext], rfl⟩
  · exact ⟨(computeSubb (zext k) (s.reg rs) s.cc.c).result, _, formatC_const computeSubb a rs k s,
      fun _ => by rw [u_computeSubb, u_zext]; rfl, rfl⟩
  · exact ⟨(computeSl n (zext k)).result, _, modifyDst_const (computeSl n) .plain k s, by rw [u_computeSl, u_zext], rfl⟩
  · exact ⟨(computeSru n (zext k)).result, _, modifyDst_const (computeSru n) .plain k s,
      by rw [u_computeSru, u_zext], rfl⟩
  · have hk : u (zext k) ≤ 9841 := by rw [u_zext]; omega
    exact ⟨srsResult n (zext k), _, modifyDst_const (computeSrs n) .plain k s,
      by rw [srsResult_of_nonneg n hk, u_computeSru, u_zext], rfl⟩

end Sys2Proof.Machine

/-! The step of R70, and one register in two roles, pc and the stack among them (40_operands.md R78 to R83). -/

namespace Sys2Proof.Machine

/-- Settles O5: the fetch reads the word and steps pc, and the word decodes. -/
theorem stepRunsDecodedInstruction : Obligations.StepRunsDecodedInstruction := by
  intro s ir i hp hw hd
  have hfetch : fetch s = .ok (ir, s.setReg 0 (inc s.pc)) := (fetch_ok_iff s ir _).2 ⟨hp, hw, rfl⟩
  simp only [step, hfetch, hd]

/-- A readable memory operand, with its address register stepped (R71, R73). -/
theorem sourceIs_mem {a : Auto} {r : RegNum} {s : State} {x : Word} (hp : s.populated (operandAddr a r s) = true)
    (hw : s.word (operandAddr a r s) = some x) :
    SourceIs a (.mem r) s x (s.setReg r (registerAfter a (s.reg r))) := ⟨hp, hw, rfl⟩

/-- move, add and sub begin with the source's read and write only the destination's address, found after the source phase
(R35, R77). -/
theorem accesses_move_add_sub {i : Instr} {a : Auto} {src dst : Operand} {s s' : State} {v : Word}
    (hi : i = .move a src dst ∨ i = .add a src dst ∨ i = .sub a src dst) (hs : SourceIs a src s v s') :
    ∃ l, accesses i s = readOf a src s ++ l ∧ ∀ x, .write x ∈ l ↔ .write x ∈ writeOf a dst s' := by
  obtain ⟨-, hG, -⟩ := accessesInOrder
  obtain ⟨hmove, hadd, hsub⟩ := hG a src dst s s' v hs
  obtain rfl | rfl | rfl := hi
  · exact ⟨_, hmove, fun x => Iff.rfl⟩
  · exact ⟨_, hadd.trans (List.append_assoc _ _ _), by simp⟩
  · exact ⟨_, hsub.trans (List.append_assoc _ _ _), by simp⟩

/-- With one register as the pointer of both fields, the source's address is that of the register on entry, the destination's
that of the register once stepped, and the register is stepped twice (R77, R78). -/
theorem exec_samePointer {mk : Auto → Operand → Operand → Instr} (hmk : mk = .move ∨ mk = .add ∨ mk = .sub) {a : Auto}
    {r : RegNum} {s t : State} (h : exec (mk a (.mem r) (.mem r)) s = .next t) :
    (accesses (mk a (.mem r) (.mem r)) s).head? = some (.read (operandAddr a r s)) ∧
      (∀ x, .write x ∈ accesses (mk a (.mem r) (.mem r)) s ↔
        x = operandAddr a r (s.setReg r (registerAfter a (s.reg r)))) ∧
      t.reg r = registerAfter a (registerAfter a (s.reg r)) := by
  have hi : mk a (.mem r) (.mem r) = .move a (.mem r) (.mem r) ∨ mk a (.mem r) (.mem r) = .add a (.mem r) (.mem r) ∨
      mk a (.mem r) (.mem r) = .sub a (.mem r) (.mem r) := by
    obtain rfl | rfl | rfl := hmk <;> simp
  obtain ⟨v, s', w, cc, hs, rfl⟩ := exec_move_add_sub_next hi h
  obtain ⟨l, hl, hwrite⟩ := accesses_move_add_sub hi hs
  obtain ⟨-, -, rfl⟩ := hs
  refine ⟨by rw [hl]; rfl, fun x => ?_, ?_⟩
  · simp [hl, hwrite, writeOf]
  · simp [destAfter]

/-- Settles O33: the destination's address is found in the register as the source phase has left it. -/
theorem samePointerInBothFields : Obligations.SamePointerInBothFields := by
  intro mk r s hmk
  refine ⟨fun t h => ?_, fun t h => ?_, fun t h => ?_⟩ <;>
    simpa [operandAddr, registerAfter] using exec_samePointer hmk h

/-- Settles O34: the source phase steps the register, then the destination reads or writes it. -/
theorem autoModifiedAndWrittenRegister : Obligations.AutoModifiedAndWrittenRegister := by
  intro r s x
  refine ⟨fun hp hw => ⟨?_, ?_⟩, fun hp => ?_, fun hp => ?_, fun hp hw => ?_, fun hp hw => ?_⟩
  · obtain ⟨t, he, ht, -⟩ := move_to_reg (sourceIs_mem (a := .inc) hp hw) r
    exact ⟨t, he, ht⟩
  · obtain ⟨t, he, ht⟩ := add_to_reg (sourceIs_mem (a := .inc) hp hw) r
    refine ⟨t, he, ?_⟩
    rw [State.reg_setReg_same, registerAfter, u_inc] at ht
    change u (t.reg r) = (u (s.reg r) + 1 + u x) % 19683
    omega
  · obtain ⟨t, he, hmem, hreg, -⟩ := move_to_mem (a := .inc) (src := .reg r) (r := r) ⟨rfl, rfl⟩ hp
    exact ⟨t, he, hmem, hreg⟩
  · obtain ⟨t, he, hmem, hreg, -⟩ := move_to_mem (a := .dec) (src := .reg r) (r := r) ⟨rfl, rfl⟩ hp
    exact ⟨t, he, hmem, hreg⟩
  · obtain ⟨t, he, ht⟩ := add_to_reg (sourceIs_mem (a := .dec) hp hw) r
    refine ⟨t, he, ?_⟩
    have hdec := u_dec (s.reg r)
    rw [State.reg_setReg_same, registerAfter] at ht
    change (u (t.reg r) : Int) = ((u (s.reg r) : Int) - 1 + u x) % 19683
    omega
  · obtain ⟨t, he, hpc, hreg⟩ := move_to_reg (sourceIs_mem (a := .dec) (r := 8) hp hw) 0
    exact ⟨t, he, (hreg 8 (by decide)).trans (State.reg_setReg_same _ _ _), hpc⟩

/-- A load through pc into another register leaves pc stepped by its mode (R71, R79). -/
theorem move_through_pc {a : Auto} {s : State} {x : Word} {r : RegNum} (hr : r ≠ 0)
    (hp : s.populated (operandAddr a 0 s) = true) (hw : s.word (operandAddr a 0 s) = some x) :
    ∃ t, exec (.move a (.mem 0) (.reg r)) s = .next t ∧ t.reg r = x ∧ t.pc = registerAfter a s.pc := by
  obtain ⟨t, he, ht, hreg⟩ := move_to_reg (sourceIs_mem hp hw) r
  exact ⟨t, he, ht, (hreg 0 hr.symm).trans (State.reg_setReg_same _ _ _)⟩

/-- Settles O35: pc is read, stepped and written as any register, from the value the fetch left. -/
theorem pcAsOperand : Obligations.PcAsOperand := by
  intro s addr x r k hpc hr
  have haddr : operandAddr .dec 0 s = addr := by
    change dec s.pc = addr
    rw [hpc, dec_inc]
  have hu : u s.pc = (u addr + 1) % 19683 := by rw [hpc, u_inc]
  rw [← hpc]
  refine ⟨?_, fun hp hw => ⟨move_through_pc (a := .inc) hr hp hw, move_through_pc (a := .plain) hr hp hw, ?_⟩,
    fun hp hw => ?_, ?_⟩
  · obtain ⟨t, he, ht, -⟩ := move_to_reg (a := .plain) (src := .reg 0) (s := s) ⟨rfl, rfl⟩ r
    exact ⟨t, he, ht⟩
  · obtain ⟨t, he, ht⟩ := add_to_reg (sourceIs_mem (a := .inc) (r := 0) hp hw) 0
    refine ⟨t, he, ?_⟩
    rw [State.reg_setReg_same, registerAfter, u_inc] at ht
    change u (s.reg 0) = _ at hu
    change u (t.reg 0) = (u addr + 2 + u x) % 19683
    omega
  · rw [← haddr] at hp hw ⊢
    exact move_through_pc (a := .dec) hr hp hw
  · obtain ⟨t, he, ht⟩ := add_to_reg (a := .plain) (src := .const k) (s := s) ⟨u_zext k, rfl⟩ 0
    refine ⟨t, he, ?_⟩
    rw [u_zext] at ht
    change u (s.reg 0) = _ at hu
    change u (t.reg 0) = (u addr + 1 + k.val) % 19683
    omega

/-- A push in one mode and a pop in a mode that finds the word pushed and steps the pointer back (R81). -/
theorem push_then_pop {push pop : Auto} {s : State} {p : RegNum} (r q : RegNum)
    (hp : s.populated (operandAddr push p s) = true)
    (hback : ∀ t : State, t.reg p = registerAfter push (s.reg p) →
      operandAddr pop p t = operandAddr push p s ∧ registerAfter pop (t.reg p) = s.reg p) :
    ∃ t t', exec (.move push (.reg r) (.mem p)) s = .next t ∧ t.reg p = registerAfter push (s.reg p) ∧
      t.word (operandAddr push p s) = some (s.reg r) ∧
      exec (.move pop (.mem p) (.reg q)) t = .next t' ∧ t'.reg q = s.reg r ∧ (q ≠ p → t'.reg p = s.reg p) := by
  obtain ⟨t, he, hw, hreg, hmap⟩ := move_to_mem (src := .reg r) ⟨rfl, rfl⟩ hp
  obtain ⟨haddr, hrestore⟩ := hback t hreg
  have hpop : t.populated (operandAddr pop p t) = true := by rwa [haddr, State.populated, hmap]
  obtain ⟨t', he', hq, hother⟩ := move_to_reg (sourceIs_mem hpop (haddr ▸ hw)) q
  refine ⟨t, t', he, hreg, hw, he', hq, fun hne => ?_⟩
  rw [hother p hne.symm, State.reg_setReg_same, hrestore]

/-- Settles O37: dec undoes inc on the upward-growing stack, and inc undoes dec on the downward-growing one. -/
theorem pushThenPop : Obligations.PushThenPop := by
  intro s p r q
  refine ⟨fun hp => push_then_pop (push := .inc) (pop := .dec) r q hp fun t ht => ?_,
    fun hp => push_then_pop (push := .dec) (pop := .inc) r q hp fun t ht => ?_⟩
  · simp [operandAddr, registerAfter, ht, dec_inc]
  · simp [operandAddr, registerAfter, ht, inc_dec]

end Sys2Proof.Machine

/-! What move, add, sub, addc and subb leave, and the sign of an overflowed result (41_move_add_sub.md R85 to R91, 42_carry.md R95,
R96). -/

namespace Sys2Proof.Machine

/-- add with a readable source and destination (R86). -/
theorem execAdd_of {a : Auto} {src dst : Operand} {s s' : State} {v d : Word} (hs : SourceIs a src s v s')
    (hd : DestIs a dst s' d) :
    exec (.add a src dst) s = .next (destAfter a dst s' (computeAdd d v).result (computeAdd d v).cc) :=
  (outcomeOf_next_iff _ _).2 (formatG_of computeAdd hs hd)

/-- sub with a readable source and destination (R87). -/
theorem execSub_of {a : Auto} {src dst : Operand} {s s' : State} {v d : Word} (hs : SourceIs a src s v s')
    (hd : DestIs a dst s' d) :
    exec (.sub a src dst) s = .next (destAfter a dst s' (computeSub d v).result (computeSub d v).cc) :=
  (outcomeOf_next_iff _ _).2 (formatG_of computeSub hs hd)

/-- addc with a readable destination (R95). -/
theorem execAddc_of {a : Auto} {dst : Operand} {s : State} {d : Word} (rs : RegNum) (hd : DestIs a dst s d) :
    exec (.addc a rs dst) s = .next (destAfter a dst s (computeAddc d (s.reg rs) s.cc.c).result
      (computeAddc d (s.reg rs) s.cc.c).cc) :=
  (outcomeOf_next_iff _ _).2 (modifyDst_of_destIs _ hd)

/-- subb with a readable destination (R96). -/
theorem execSubb_of {a : Auto} {dst : Operand} {s : State} {d : Word} (rs : RegNum) (hd : DestIs a dst s d) :
    exec (.subb a rs dst) s = .next (destAfter a dst s (computeSubb d (s.reg rs) s.cc.c).result
      (computeSubb d (s.reg rs) s.cc.c).cc) :=
  (outcomeOf_next_iff _ _).2 (modifyDst_of_destIs _ hd)

/-- The carry of add is the carry out of the unsigned sum (R86). -/
theorem computeAdd_c_val (d v : Word) : (computeAdd d v).cc.c.val = (u d + u v) / 19683 := by
  have hd := u_le_maxu d
  have hv := u_le_maxu v
  change (u d + u v) / 19683 % 3 = _
  omega

/-- Settles O7: a readable source and a writable destination are all that move asks for. -/
theorem moveResult : Obligations.MoveResult :=
  fun _ _ _ _ _ _ hs hd => execMove_of hs hd

/-- Settles O8: the destination receives what the adder computes. -/
theorem addResult : Obligations.AddResult :=
  fun _ _ _ _ _ v d hs hd => ⟨_, _, execAdd_of hs hd, u_computeAdd d v, rfl, computeAdd_c_val d v, rfl⟩

/-- Settles O9: the destination receives what the adder computes of the complemented source. -/
theorem subResult : Obligations.SubResult :=
  fun _ _ _ _ _ v d hs hd => ⟨_, _, execSub_of hs hd, u_computeSub d v, rfl, computeSub_c d v, rfl⟩

/-! The sign of a result that overflows (R91). -/

/-- The signed and the unsigned value of a word are congruent (R12). -/
theorem sg_modEq_u (w : Word) : sg w ≡ u w [ZMOD 19683] := by
  rw [sg_eq, Int.ModEq]
  split <;> omega

/-- A word is determined by its signed value. -/
theorem sg_injective : Function.Injective sg := by
  intro w w' h
  have hw := u_le_maxu w
  have hw' := u_le_maxu w'
  have hu : u w % 19683 = u w' := by
    have := (sg_modEq_u w).symm.trans (h ▸ sg_modEq_u w')
    rw [Int.ModEq] at this
    omega
  exact Fin.ext ((u_mod w).symm.trans hu)

/-- The sign trit `t` is the inverse of the sign of the exact result `z`, which is not zero (R91). -/
def InvertsSign (t : Trit) (z : Int) : Prop := t ≠ 0 ∧ (t = 2 ↔ 0 < z) ∧ (t = 1 ↔ z < 0)

/-- A word's sign is the inverse of the exact result's where the signed value is. -/
theorem invertsSign_sign3_iff (w : Word) (z : Int) :
    InvertsSign (sign3 w) z ↔ sg w ≠ 0 ∧ (sg w < 0 ↔ 0 < z) ∧ (0 < sg w ↔ z < 0) := by
  rw [InvertsSign, ne_eq, sign3_eq_zero_iff, sign3_eq_two_iff, sign3_eq_one_iff]

theorem overflow_eq_one_iff (z : Int) : overflow z = 1 ↔ z < -9841 ∨ 9841 < z := by
  change (if -9841 ≤ z ∧ z ≤ 9841 then (0 : Trit) else 1) = 1 ↔ _
  split
  · simp; omega
  · simp; omega

/-- An overflowed exact result is off the stored one by 19,683 towards zero, so the adder inverts its sign unless that step reaches
zero or passes it (R91). -/
theorem adder_invertsSign_iff {n : Nat} {z : Int} (hn : (n : Int) ≡ z [ZMOD 19683]) (hlow : -29524 ≤ z)
    (hhigh : z ≤ 29524) (hv : (adder n z).cc.v = 1) :
    InvertsSign (adder n z).cc.s z ↔ -19683 < z ∧ z < 19683 := by
  obtain ⟨hmin, hmax⟩ := sg_bounds (Word.ofNat n)
  have hw : sg (Word.ofNat n) ≡ z [ZMOD 19683] := by
    refine (sg_modEq_u _).trans (.trans ?_ hn)
    rw [u_ofNat]
    exact Int.mod_modEq n 19683
  refine (invertsSign_sign3_iff (Word.ofNat n) z).trans ?_
  rw [Int.ModEq] at hw
  obtain hz | hz := (overflow_eq_one_iff z).1 hv
  · have hs : sg (Word.ofNat n) = z + 19683 := by omega
    omega
  · have hs : sg (Word.ofNat n) = z - 19683 := by omega
    omega

/-- add is addc with 0 carried in (R86, R95). -/
theorem computeAdd_eq_computeAddc (d v : Word) : computeAdd d v = computeAddc d v 0 := by
  simp [computeAdd, computeAddc]

/-- sub is subb with 1 carried in, no borrow (R87, R96). -/
theorem computeSub_eq_computeSubb (d v : Word) : computeSub d v = computeSubb d v 1 := by
  simp [computeSub, computeSubb]

/-- addc inverts the sign of an overflowed sum that is below 19,683 (R91, R95). -/
theorem computeAddc_invertsSign_iff {d v : Word} {c : Trit} (hv : (computeAddc d v c).cc.v = 1) :
    InvertsSign (computeAddc d v c).cc.s (sg d + sg v + c.val) ↔ sg d + sg v + c.val < 19683 := by
  obtain ⟨hdmin, hdmax⟩ := sg_bounds d
  obtain ⟨hvmin, hvmax⟩ := sg_bounds v
  have hmod : ((u d + u v + c.val : Nat) : Int) ≡ sg d + sg v + c.val [ZMOD 19683] := by
    push_cast
    exact (((sg_modEq_u d).add (sg_modEq_u v)).add_right _).symm
  rw [computeAddc, adder_invertsSign_iff hmod (by omega) (by omega) hv]
  omega

/-- subb inverts the sign of an overflowed difference that is strictly between -19,683 and 19,683 (R91, R96). -/
theorem computeSubb_invertsSign_iff {d v : Word} {c : Trit} (hv : (computeSubb d v c).cc.v = 1) :
    InvertsSign (computeSubb d v c).cc.s (sg d - sg v - 1 + c.val) ↔
      -19683 < sg d - sg v - 1 + c.val ∧ sg d - sg v - 1 + c.val < 19683 := by
  obtain ⟨hdmin, hdmax⟩ := sg_bounds d
  obtain ⟨hvmin, hvmax⟩ := sg_bounds v
  have hmod : ((u d + (19682 - u v) + c.val : Nat) : Int) ≡ sg d - sg v - 1 + c.val [ZMOD 19683] := by
    have hsub := (sg_modEq_u d).sub (sg_modEq_u v)
    have hle := u_le_maxu v
    rw [Int.ModEq] at hsub ⊢
    omega
  exact adder_invertsSign_iff hmod (by omega) (by omega) hv

/-- Settles O21: with no carry in, or no borrow, the exact result is nearer to zero than 19,683. -/
theorem overflowInvertsSign : Obligations.OverflowInvertsSign := by
  intro a src dst s s' t v d hs hd hv
  obtain ⟨hdmin, hdmax⟩ := sg_bounds d
  obtain ⟨hvmin, hvmax⟩ := sg_bounds v
  refine ⟨fun h => ?_, fun h => ?_⟩
  · obtain rfl := Host.Outcome.next.inj ((execAdd_of hs hd).symm.trans h)
    rw [destAfter_cc, computeAdd_eq_computeAddc] at hv ⊢
    have hsign := (computeAddc_invertsSign_iff hv).2 (by simp; omega)
    simpa [InvertsSign] using hsign
  · obtain rfl := Host.Outcome.next.inj ((execSub_of hs hd).symm.trans h)
    rw [destAfter_cc, computeSub_eq_computeSubb] at hv ⊢
    have hsign := (computeSubb_invertsSign_iff hv).2 (by simp; omega)
    simpa [InvertsSign] using hsign

theorem u_eq_sg_of_nonneg {w : Word} (h : 0 ≤ sg w) : (u w : Int) = sg w := by
  have hw := u_le_maxu w
  rw [sg_eq] at h ⊢
  split at h
  · next hp => rw [if_pos hp]
  · omega

/-- For operands that are not negative the unsigned sum is the exact one (R95). -/
theorem computeAddc_of_nonneg {d v : Word} {c : Trit} {n : Nat} (hd : 0 ≤ sg d) (hv : 0 ≤ sg v)
    (hn : sg d + sg v + c.val = n) : computeAddc d v c = adder n n := by
  have hu : u d + u v + c.val = n := by
    have hud := u_eq_sg_of_nonneg hd
    have huv := u_eq_sg_of_nonneg hv
    omega
  rw [computeAddc, hu, hn]

/-- Settles O22: the corners are the operands whose sum reaches 19,683; none of them is negative. -/
theorem addcOverflowCorners : Obligations.AddcOverflowCorners := by
  intro a rs dst s t d hd h hv
  obtain rfl := Host.Outcome.next.inj ((execAddc_of rs hd).symm.trans h)
  obtain ⟨hdmin, hdmax⟩ := sg_bounds d
  rw [destAfter_cc] at hv ⊢
  generalize s.reg rs = v, s.cc.c = c at hv ⊢
  obtain ⟨hvmin, hvmax⟩ := sg_bounds v
  simp only [Prod.mk.injEq]
  refine ⟨(computeAddc_invertsSign_iff hv).not.trans ?_, ?_, ?_⟩
  · rw [Fin.ext_iff, Fin.ext_iff]
    omega
  · intro hc
    have hsum : sg d + sg v + c.val = (19683 : Nat) := by rw [Fin.ext_iff, Fin.ext_iff] at hc; omega
    rw [computeAddc_of_nonneg (by omega) (by omega) hsum]
    rfl
  · rintro ⟨hd', hv', rfl⟩
    have hsum : sg d + sg v + (2 : Trit).val = (19684 : Nat) := by rw [hd', hv']; rfl
    rw [computeAddc_of_nonneg (by omega) (by omega) hsum]
    rfl

/-- Settles O23: the corners are the operands whose difference reaches 19,683 or -19,683. -/
theorem subbOverflowCorners : Obligations.SubbOverflowCorners := by
  intro a rs dst s t d hd h hv
  obtain rfl := Host.Outcome.next.inj ((execSubb_of rs hd).symm.trans h)
  obtain ⟨hdmin, hdmax⟩ := sg_bounds d
  rw [destAfter_cc] at hv ⊢
  generalize s.reg rs = v, s.cc.c = c at hv ⊢
  obtain ⟨hvmin, hvmax⟩ := sg_bounds v
  simp only [Prod.mk.injEq]
  refine ⟨(computeSubb_invertsSign_iff hv).not.trans ?_, ?_⟩
  · rw [Fin.ext_iff, Fin.ext_iff]
    omega
  · rintro (⟨hd', hv', rfl⟩ | ⟨hd', hv', rfl⟩)
    · obtain rfl : d = 9841 := sg_injective hd'
      obtain rfl : v = 9842 := sg_injective hv'
      rfl
    · obtain rfl : d = 9842 := sg_injective hd'
      obtain rfl : v = 9841 := sg_injective hv'
      rfl

/-! pc as the destination: the jump forms (R92). -/

/-- A register destination holds the result (R75). -/
@[simp] theorem destAfter_reg_same (a : Auto) (r : RegNum) (s : State) (w : Word) (cc : CC) :
    (destAfter a (.reg r) s w cc).reg r = w := State.reg_setReg_same _ r w

@[simp] theorem State.pc_setReg_zero (s : State) (w : Word) : (s.setReg 0 w).pc = w := State.reg_setReg_same s 0 w

/-- A move to pc jumps to the source's value and loads cc from it (R85, R92). -/
theorem move_to_pc {a : Auto} {src : Operand} {s s' : State} {v : Word} (hs : SourceIs a src s v s') :
    ∃ t, exec (.move a src (.reg 0)) s = .next t ∧ t.pc = v ∧ t.cc = ⟨sign3 v, 0, 0⟩ :=
  ⟨_, execMove_of hs trivial, destAfter_reg_same .., destAfter_cc ..⟩

/-- An add to pc jumps forward from pc after the source phase, and s is the target's sign (R86, R92). -/
theorem add_to_pc {a : Auto} {src : Operand} {s s' : State} {v : Word} (hs : SourceIs a src s v s') :
    ∃ t, exec (.add a src (.reg 0)) s = .next t ∧ u t.pc = (u s'.pc + u v) % 19683 ∧ t.cc.s = sign3 t.pc := by
  refine ⟨_, execAdd_of hs rfl, ?_, ?_⟩
  · rw [State.pc, destAfter_reg_same, u_computeAdd]
    rfl
  · rw [State.pc, destAfter_reg_same, destAfter_cc]
    rfl

/-- A sub from pc jumps back from pc after the source phase, s is the target's sign, and memory and the other registers stay
(R87, R92). -/
theorem sub_from_pc {a : Auto} {src : Operand} {s s' : State} {v : Word} (hs : SourceIs a src s v s') :
    ∃ t, exec (.sub a src (.reg 0)) s = .next t ∧ (u t.pc : Int) = ((u s'.pc : Int) - u v) % 19683 ∧
      t.cc.s = sign3 t.pc ∧ t.mem = s'.mem ∧ ∀ r, r ≠ 0 → t.reg r = s'.reg r := by
  refine ⟨_, execSub_of hs rfl, ?_, ?_, rfl, fun r hr => State.reg_setReg_ne _ _ hr⟩
  · rw [State.pc, destAfter_reg_same, u_computeSub]
    rfl
  · rw [State.pc, destAfter_reg_same, destAfter_cc]
    rfl

/-- The push of an immediate: the word after the instruction goes to the stack, sp and pc step over it (R81, R92). -/
theorem push_immediate {s : State} {x : Word} (hp : s.populated s.pc = true) (hw : s.word s.pc = some x)
    (hsp : s.populated s.sp = true) :
    ∃ t, exec (.move .inc (.mem 0) (.mem 8)) s = .next t ∧ t.word s.sp = some x ∧ t.sp = inc s.sp ∧
      t.pc = inc s.pc := by
  have hs : SourceIs .inc (.mem 0) s x (s.setReg 0 (inc s.pc)) := sourceIs_mem (a := .inc) (r := 0) hp hw
  have hreg : (s.setReg 0 (inc s.pc)).reg 8 = s.sp := State.reg_setReg_ne s _ (by decide)
  have hd : DestWritable .inc (.mem 8) (s.setReg 0 (inc s.pc)) := by
    rw [DestWritable, operandAddr, hreg]
    exact hsp
  refine ⟨_, execMove_of hs hd, ?_, ?_, ?_⟩
  · exact destAfter_word_of_write x _ (by rw [writeOf, operandAddr, hreg]; exact List.mem_singleton_self _)
  · rw [← hreg]
    exact State.reg_setReg_same _ 8 _
  · exact (destAfter_reg_eq _ x _ (by decide)).trans (State.pc_setReg_zero s _)

/-- Settles O36: each form is a move, add or sub to pc, or the push, from the pc that the source phase leaves. -/
theorem jumpForms : Obligations.JumpForms := by
  intro s addr x r k hpc
  have hu : u s.pc = (u addr + 1) % 19683 := by rw [hpc, u_inc]
  have hk : SourceIs .plain (.const k) s (zext k) s := ⟨u_zext k, rfl⟩
  rw [← hpc]
  refine ⟨move_to_pc ⟨rfl, rfl⟩, fun hp hw => move_to_pc (sourceIs_mem hp hw),
    fun hp hw => ⟨move_to_pc (sourceIs_mem (a := .inc) (r := 0) hp hw), ?_, push_immediate hp hw⟩, ?_, ?_, fun hp hw => ?_⟩
  · obtain ⟨t, he, ht, hs⟩ := add_to_pc (sourceIs_mem (a := .inc) (r := 0) hp hw)
    refine ⟨t, he, ?_, hs⟩
    rw [State.pc_setReg_zero, registerAfter, u_inc, ← State.pc] at ht
    change u t.pc = (u addr + 2 + u x) % 19683
    omega
  · obtain ⟨t, he, ht, hs⟩ := add_to_pc hk
    refine ⟨t, he, ?_, hs⟩
    rw [u_zext] at ht
    change u t.pc = (u addr + 1 + k.val) % 19683
    omega
  · obtain ⟨t, he, ht, hs, -, -⟩ := sub_from_pc hk
    refine ⟨t, he, ?_, hs⟩
    rw [u_zext] at ht
    change (u t.pc : Int) = ((u addr : Int) + 1 - k.val) % 19683
    omega
  · obtain ⟨-, -, -, -, hpop⟩ := autoModifiedAndWrittenRegister 8 s x
    exact hpop hp hw

/-- Settles O39: the fetch steps pc forward by one, and `sub =1,pc` steps it back. -/
theorem oneWordLoop : Obligations.OneWordLoop := by
  intro s hp hw
  have hdec : decode 4410 = .ok (.sub .plain (.const 1) (.reg 0)) := (decode_ok_iff _ _).2 ⟨rfl, rfl⟩
  obtain ⟨t, he, ht, -, hmem, hreg⟩ := sub_from_pc (a := .plain) (src := .const 1) (s := s.setReg 0 (inc s.pc))
    ⟨u_zext 1, rfl⟩
  refine ⟨t, (stepRunsDecodedInstruction s 4410 _ hp hw hdec).trans he, ?_, hmem,
    fun r hr => (hreg r hr).trans (State.reg_setReg_ne s _ hr)⟩
  have hone : u (zext 1) = 1 := rfl
  have hpc := u_le_maxu s.pc
  rw [State.pc_setReg_zero, u_inc, hone] at ht
  apply Fin.ext
  change u t.pc = u s.pc
  omega

end Sys2Proof.Machine

/-! addc and subb as exact arithmetic on unsigned values, two words in a row, and the frame of the instructions that run on a
destination alone (42_carry.md R95 to R99, 43_shift.md R104). -/

namespace Sys2Proof.Machine

/-- A sum whose carry fits a trit is kept whole: the result is its low word and the carry out its high one (R89, R95, R96). -/
theorem adder_exact {n : Nat} (z : Int) (hn : n < 59049) : u (adder n z).result + 19683 * (adder n z).cc.c.val = n := by
  change n % 19683 + 19683 * (n / 19683 % 3) = n
  omega

/-- addc loses nothing, whatever is carried in: two words and a trit sum to less than three times 19,683 (R95, R97). -/
theorem computeAddc_exact (d v : Word) (c : Trit) :
    u (computeAddc d v c).result + 19683 * (computeAddc d v c).cc.c.val = u d + u v + c.val := by
  have hd := u_le_maxu d
  have hv := u_le_maxu v
  exact adder_exact _ (by omega)

/-- subb loses nothing of its sum with the complemented source (R96, R97). -/
theorem computeSubb_exact (d v : Word) (c : Trit) :
    u (computeSubb d v c).result + 19683 * (computeSubb d v c).cc.c.val = u d + (19682 - u v) + c.val := by
  have hd := u_le_maxu d
  exact adder_exact (n := u d + (19682 - u v) + c.val) _ (by omega)

/-- The carry of addc is the carry out of the unsigned sum (R95). -/
theorem computeAddc_c_val (d v : Word) (c : Trit) : (computeAddc d v c).cc.c.val = (u d + u v + c.val) / 19683 := by
  have hsum := computeAddc_exact d v c
  have hlow := u_le_maxu (computeAddc d v c).result
  omega

/-- The carry of subb is the carry out of the sum with the complemented source (R96). -/
theorem computeSubb_c_val (d v : Word) (c : Trit) :
    (computeSubb d v c).cc.c.val = (u d + (19682 - u v) + c.val) / 19683 := by
  have hsum := computeSubb_exact d v c
  have hlow := u_le_maxu (computeSubb d v c).result
  omega

/-- Settles O10: the destination receives what the adder computes with the carry on entry. -/
theorem addcResult : Obligations.AddcResult :=
  fun _ rs _ s d hd =>
    ⟨_, _, execAddc_of rs hd, u_computeAddc d (s.reg rs) s.cc.c, rfl, computeAddc_c_val d (s.reg rs) s.cc.c, rfl⟩

/-- Settles O11: the destination receives what the adder computes of the complemented source with the carry on entry. -/
theorem subbResult : Obligations.SubbResult :=
  fun _ rs _ s d hd =>
    ⟨_, _, execSubb_of rs hd, u_computeSubb d (s.reg rs) s.cc.c, rfl, computeSubb_c_val d (s.reg rs) s.cc.c, rfl⟩

/-- Only 39,366, the largest sum there is, carries 2 out of addc (R97). -/
theorem computeAddc_c_eq_two_iff (d v : Word) (c : Trit) :
    (computeAddc d v c).cc.c = 2 ↔ c = 2 ∧ u d = 19682 ∧ u v = 19682 := by
  have hd := u_le_maxu d
  have hv := u_le_maxu v
  rw [Fin.ext_iff, Fin.ext_iff, computeAddc_c_val]
  omega

/-- Only the largest sum there is carries 2 out of subb, that with the complement of 0 (R97). -/
theorem computeSubb_c_eq_two_iff (d v : Word) (c : Trit) :
    (computeSubb d v c).cc.c = 2 ↔ c = 2 ∧ u d = 19682 ∧ u v = 0 := by
  have hd := u_le_maxu d
  rw [Fin.ext_iff, Fin.ext_iff, computeSubb_c_val]
  omega

/-- Settles O24: what the instruction leaves in c is the carry that it computes. -/
theorem carryTwoOnlyInOneCorner : Obligations.CarryTwoOnlyInOneCorner := by
  intro a rs dst s t d hd
  refine ⟨fun h => ?_, fun h => ?_⟩
  · obtain rfl := Host.Outcome.next.inj ((execAddc_of rs hd).symm.trans h)
    rw [destAfter_cc]
    exact computeAddc_c_eq_two_iff d (s.reg rs) s.cc.c
  · obtain rfl := Host.Outcome.next.inj ((execSubb_of rs hd).symm.trans h)
    rw [destAfter_cc]
    exact computeSubb_c_eq_two_iff d (s.reg rs) s.cc.c

/-- A completed addc, subb or shift has no source phase: it writes its destination from the state it began in (R99, R104). -/
theorem exec_carry_shift_next {i : Instr} {a : Auto} {dst : Operand} {s t : State}
    (hi : (∃ rs, i = .addc a rs dst ∨ i = .subb a rs dst) ∨
      a = .plain ∧ ∃ n, i = .sl n dst ∨ i = .sru n dst ∨ i = .srs n dst)
    (h : exec i s = .next t) : ∃ w cc, t = destAfter a dst s w cc := by
  have hrun : ∃ compute, exec i s = outcomeOf (modifyDst compute a dst s) := by
    obtain ⟨rs, rfl | rfl⟩ | ⟨rfl, n, rfl | rfl | rfl⟩ := hi <;> exact ⟨_, rfl⟩
  obtain ⟨compute, hrun⟩ := hrun
  obtain ⟨d, -, ht⟩ := (modifyDst_ok_iff compute a dst s t).1 ((outcomeOf_next_iff _ t).1 (hrun.symm.trans h))
  exact ⟨_, _, ht⟩

/-- Settles O28: the frame of the destination's write. -/
theorem frameOfCarryAndShift : Obligations.FrameOfCarryAndShift := by
  intro i a dst s t hi h
  obtain ⟨w, cc, rfl⟩ := exec_carry_shift_next hi h
  refine ⟨fun r hr => destAfter_reg_eq s w cc hr, destAfter_unpopulated a dst s w cc, ?_⟩
  split
  · next hl => exact fun x => destAfter_word_eq w cc (by simp [hl])
  · next hl => exact fun x => destAfter_word_eq w cc (by simp [hl])
  · next hl => exact fun x hx => destAfter_word_eq w cc (by simpa [hl] using hx)

/-! Two words in a row (R98). -/

/-- A register destination leaves the other registers (R75). -/
theorem destAfter_reg_ne {r q : RegNum} (h : q ≠ r) (a : Auto) (s : State) (w : Word) (cc : CC) :
    (destAfter a (.reg r) s w cc).reg q = s.reg q :=
  destAfter_reg_eq s w cc (by simpa [dstRegs] using h)

/-- Settles O41: the carry out of the low words is what addc adds to the high ones, and neither sum loses anything. -/
theorem doubleWordAdd : Obligations.DoubleWordAdd := by
  intro s lo hi lo' hi' hne hsrc
  refine ⟨_, _, execAdd_of (src := .reg lo) ⟨rfl, rfl⟩ rfl, execAddc_of hi rfl, ?_⟩
  simp only [W, destAfter_cc, destAfter_reg_same, destAfter_reg_ne hne, destAfter_reg_ne hne.symm,
    destAfter_reg_ne hsrc.symm, computeAdd_eq_computeAddc]
  have hlow := computeAddc_exact (s.reg lo') (s.reg lo) 0
  have hhigh := computeAddc_exact (s.reg hi') (s.reg hi) (computeAddc (s.reg lo') (s.reg lo) 0).cc.c
  rw [Fin.val_zero] at hlow
  omega

/-- Settles O42: sub is subb with no borrow, and the carry out of the low words is what subb adds to the high ones. -/
theorem doubleWordSub : Obligations.DoubleWordSub := by
  intro s lo hi lo' hi' hne hsrc
  refine ⟨_, _, execSub_of (src := .reg lo) ⟨rfl, rfl⟩ rfl, execSubb_of hi rfl, ?_⟩
  simp only [W, destAfter_cc, destAfter_reg_same, destAfter_reg_ne hne, destAfter_reg_ne hne.symm,
    destAfter_reg_ne hsrc.symm, computeSub_eq_computeSubb]
  have hlow := computeSubb_exact (s.reg lo') (s.reg lo) 1
  have hhigh := computeSubb_exact (s.reg hi') (s.reg hi) (computeSubb (s.reg lo') (s.reg lo) 1).cc.c
  have hlo := u_le_maxu (s.reg lo)
  have hhi := u_le_maxu (s.reg hi)
  rw [Fin.val_one] at hlow
  omega

end Sys2Proof.Machine

/-! The shifts: what they compute as arithmetic on the word's readings, and the count field (43_shift.md R100 to R106). -/

namespace Sys2Proof

theorem twoTrits_val (w : Word) (lo : Nat) : (twoTrits w lo).val = slice w (lo + 1) lo := by
  have hlt : slice w (lo + 1) lo < 9 := by
    rw [slice, show lo + 1 - lo + 1 = 2 by omega]
    exact Nat.mod_lt _ (by decide)
  exact Nat.mod_eq_of_lt hlt

/-- The count that a two-trit field gives: 9 for 00, else the field's own value (R106). -/
theorem countOf_twoTrits (w : Word) (lo : Nat) :
    countOf (twoTrits w lo) = if slice w (lo + 1) lo = 0 then 9 else slice w (lo + 1) lo := by
  rw [← twoTrits_val]
  exact if_congr Fin.ext_iff rfl rfl

theorem countOk_iff (n : Nat) : countOk n = true ↔ 1 ≤ n ∧ n ≤ 9 := by
  rw [countOk, Bool.and_eq_true, decide_eq_true_iff, decide_eq_true_iff]

/-- A word that decodes to a shift has its count in the field of trits 04..03 (R52, R106). -/
theorem count_of_decode_shift {w : Word} {f : Trit} {n : Nat} {dst : Operand}
    (h : decode w = .ok (shiftOf f n dst)) : countOf (twoTrits w 3) = n ∧ countOk n = true := by
  obtain ⟨hwf, henc⟩ := (decode_ok_iff w _).1 h
  obtain ⟨hcount, hpack⟩ := shift_encoding f n dst
  have hn : countOk n = true := hcount.symm.trans hwf
  obtain ⟨-, -, ⟨-, hfield⟩, -⟩ :=
    (pack_fn_eq_iff (by decide) (by decide) f ⟨countCode n, Laws.countCode_lt hn⟩ dst w).1 (hpack.symm.trans henc)
  exact ⟨(countOf_eq_iff hn _).2 (congrArg Fin.val hfield), hn⟩

/-- The trits that a shift by `n` keeps and those that it moves out make up a word. -/
theorem three_pow_mul_three_pow {n : Nat} (hn : n ≤ 9) : 3 ^ (9 - n) * 3 ^ n = 19683 := by
  rw [← pow_add, Nat.sub_add_cancel hn]
  rfl

theorem three_pow_sub_le (n : Nat) : 3 ^ (9 - n) ≤ 19683 := Nat.pow_le_pow_right (by decide) (Nat.sub_le 9 n)

/-- A signed value is found from the unsigned one modulo 19,683 and the range (R12). -/
theorem sg_eq_of_modEq {w : Word} {z : Int} (h : (u w : Int) ≡ z [ZMOD 19683]) (hlow : -9841 ≤ z) (hhigh : z ≤ 9841) :
    sg w = z := by
  have hw := u_le_maxu w
  rw [Int.ModEq] at h
  rw [sg_eq]
  split <;> omega

end Sys2Proof

namespace Sys2Proof.Machine

/-- An instruction that runs on a readable destination alone completes with what it computes (R77, R104). -/
theorem outcomeOf_modifyDst {compute : Word → Computed} {a : Auto} {dst : Operand} {s : State} {d w : Word}
    (hd : DestIs a dst s d) (hw : (compute d).result = w) :
    outcomeOf (modifyDst compute a dst s) = .next (destAfter a dst s w (compute d).cc) := by
  subst hw
  exact (outcomeOf_next_iff _ _).2 (modifyDst_of_destIs compute hd)

/-- What is left of the word's value after a shift right by at least one place is at most 6,560 (R102). -/
theorem u_computeSru_le {n : Nat} (hn : 1 ≤ n) (d : Word) : u (computeSru n d).result ≤ 6560 := by
  have hd := u_le_maxu d
  have hpow : 3 ≤ 3 ^ n := Nat.le_self_pow (by omega) 3
  calc u (computeSru n d).result = u d / 3 ^ n := u_computeSru n d
    _ ≤ u d / 3 := Nat.div_le_div_left hpow (by decide)
    _ ≤ 6560 := by omega

/-- A shift right unsigned never shows a negative sign (R102). -/
theorem computeSru_s_ne_two {n : Nat} (hn : 1 ≤ n) (d : Word) : (computeSru n d).cc.s ≠ 2 := by
  have hle := u_computeSru_le hn d
  intro hs
  have hneg : sg (computeSru n d).result < 0 := (sign3_eq_two_iff _).1 hs
  rw [sg_eq] at hneg
  split at hneg <;> omega

/-- The kept trits and the twos filled in fit in the word (R103). -/
theorem u_srsResult {n : Nat} (hn : n ≤ 9) (d : Word) :
    u (srsResult n d) = u d / 3 ^ n + if u d ≤ 9841 then 0 else 19683 - 3 ^ (9 - n) := by
  have hw := three_pow_mul_three_pow hn
  have hkept : u d / 3 ^ n < 3 ^ (9 - n) := Nat.div_lt_of_lt_mul (by rw [Nat.mul_comm, hw]; exact d.isLt)
  have hfits := three_pow_sub_le n
  refine Nat.mod_eq_of_lt (b := 19683) ?_
  change u d / 3 ^ n + (if u d ≤ 9841 then 0 else 19683 - 3 ^ (9 - n)) < 19683
  split <;> omega

/-- The fill by the sign of the word makes srs the floor division of the signed value: for a negative word, taking 3^(9-n) off the
quotient is taking 19,683 off the dividend (R103, R105). -/
theorem sg_srsResult {n : Nat} (hn : n ≤ 9) (d : Word) : sg (srsResult n d) = sg d / 3 ^ n := by
  have hw := three_pow_mul_three_pow hn
  have hfits := three_pow_sub_le n
  obtain ⟨hlow, hhigh⟩ := sg_bounds d
  have habs : (sg d / 3 ^ n).natAbs ≤ (sg d).natAbs := Int.natAbs_ediv_le_natAbs _ _
  refine sg_eq_of_modEq ?_ (by omega) (by omega)
  rw [u_srsResult hn, sg_eq]
  split
  · push_cast
    rw [add_zero]
  · have hdividend : (u d : Int) - 19683 = u d + -3 ^ (9 - n) * 3 ^ n := by
      have : (3 : Int) ^ (9 - n) * 3 ^ n = 19683 := by exact_mod_cast hw
      rw [neg_mul, this, sub_eq_add_neg]
    rw [hdividend, Int.add_mul_ediv_right _ _ (by positivity)]
    push_cast [Nat.cast_sub hfits]
    rw [Int.modEq_iff_dvd]
    exact ⟨-1, by ring⟩

/-- A nonzero trit is lost exactly when the signed division leaves a remainder, since 3^n divides 19,683 (R105). -/
theorem lostTrits_eq_zero_iff {n : Nat} (hn : n ≤ 9) (d : Word) : lostTrits n d = 0 ↔ sg d % 3 ^ n = 0 := by
  have hdvd : (3 : Int) ^ n ∣ 19683 := by exact_mod_cast Dvd.intro_left _ (three_pow_mul_three_pow hn)
  have hmod : sg d % 3 ^ n = ((u d % 3 ^ n : Nat) : Int) := by
    push_cast
    exact (sg_modEq_u d).of_dvd hdvd
  rw [hmod, Int.natCast_eq_zero, lostTrits]
  split
  · next hd => exact iff_of_true rfl hd
  · next hd => exact iff_of_false (by decide) hd

/-! A shift by 9 (R106). -/

theorem computeSl_nine_result (d : Word) : (computeSl 9 d).result = 0 :=
  Fin.ext (Nat.mul_mod_left (u d) 19683)

theorem computeSru_nine_result (d : Word) : (computeSru 9 d).result = 0 :=
  Fin.ext ((u_computeSru 9 d).trans (Nat.div_eq_of_lt d.isLt))

theorem srsResult_nine (d : Word) : srsResult 9 d = if u d ≤ 9841 then 0 else 19682 := by
  have hquot : u d / 3 ^ 9 = 0 := Nat.div_eq_of_lt d.isLt
  rw [srsResult, hquot]
  split <;> rfl

/-- A shift left of a constant loads the condition codes that it computes, and stores nothing (R101). -/
theorem execSl_const {n : Nat} {k : RegNum} {cc : CC} (h : (computeSl n (zext k)).cc = cc) (s : State) :
    exec (.sl n (.const k)) s = .next (s.setCC cc) := by
  rw [← h]
  exact modifyDst_const (computeSl n) .plain k s

end Sys2Proof.Machine

/-! What the shifts do, settled (R100 to R106). -/

namespace Sys2Proof

open Machine

/-- Settles O13: the count is read from its field, and by 9 no trit of the operand is left. -/
theorem shiftCount : Obligations.ShiftCount := by
  refine ⟨fun ir n dst h => ?_, fun dst s d hd => ⟨?_, ?_, ?_⟩⟩
  · have hshift : ∃ f, decode ir = .ok (shiftOf f n dst) := by
      obtain h | h | h := h
      · exact ⟨0, h⟩
      · exact ⟨1, h⟩
      · exact ⟨2, h⟩
    obtain ⟨f, hf⟩ := hshift
    obtain ⟨hfield, hok⟩ := count_of_decode_shift hf
    exact ⟨hfield.symm.trans (countOf_twoTrits ir 3), (countOk_iff n).1 hok⟩
  · exact ⟨_, outcomeOf_modifyDst hd (computeSl_nine_result d)⟩
  · exact ⟨_, outcomeOf_modifyDst hd (computeSru_nine_result d)⟩
  · exact ⟨_, outcomeOf_modifyDst hd (srsResult_nine d)⟩

/-- Settles O14: the destination receives what sl computes. -/
theorem slResult : Obligations.SlResult :=
  fun n _ _ d _ _ hd => ⟨_, _, outcomeOf_modifyDst hd rfl, u_computeSl n d, rfl, rfl, trit_val d (9 - n)⟩

/-- Settles O15: the destination receives what sru computes, which is at most 6,560. -/
theorem sruResult : Obligations.SruResult :=
  fun n _ _ d h1 _ hd =>
    ⟨_, _, outcomeOf_modifyDst hd rfl, u_computeSru n d, rfl, computeSru_s_ne_two h1 d, rfl, trit_val d (n - 1)⟩

/-- Settles O16: the destination receives what srs computes, the floor of the signed quotient. -/
theorem srsResult : Obligations.SrsResult :=
  fun n _ _ d _ h9 hd =>
    ⟨_, _, outcomeOf_modifyDst hd rfl, sg_srsResult h9 d, u_srsResult h9 d, rfl, rfl, lostTrits_eq_zero_iff h9 d,
      trit_val d (n - 1)⟩

/-- Settles O26: each line's condition codes are computed from its constant. -/
theorem shiftsOfConstantsLoadCC : Obligations.ShiftsOfConstantsLoadCC := fun s =>
  ⟨execSl_const (by decide) s, execSl_const (by decide) s, execSl_const (by decide) s, execSl_const (by decide) s,
    execSl_const (by decide) s, execSl_const (by decide) s, execSl_const (by decide) s⟩

end Sys2Proof

/-! The branches, and what they report after sub (44_branch.md R110 to R129). -/

namespace Sys2Proof.Machine

/-- A branch with a readable operand completes: the operand phase happens, and pc receives the value where `p`, what the condition
says of cc, holds (R110). -/
theorem outcomeOf_branch {cond : CC → Bool} {p : Prop} [Decidable p] {a : Auto} {src : Operand} {s s' : State} {v : Word}
    (hs : SourceIs a src s v s') (hp : cond s.cc = true ↔ p) :
    outcomeOf (branch cond a src s) = .next (if p then s'.setReg 0 v else s') :=
  (outcomeOf_next_iff _ _).2 ((branch_ok_iff cond a src s _).2 ⟨v, s', hs, if_congr hp.symm rfl rfl⟩)

/-- Settles O17: each condition is the printed formula. -/
theorem equalitySignAndOverflowBranches : Obligations.EqualitySignAndOverflowBranches := fun _ _ _ _ _ hs =>
  ⟨outcomeOf_branch hs decide_eq_true_iff, outcomeOf_branch hs decide_eq_true_iff,
    outcomeOf_branch hs decide_eq_true_iff, outcomeOf_branch hs decide_eq_true_iff,
    outcomeOf_branch hs decide_eq_true_iff, outcomeOf_branch hs decide_eq_true_iff,
    outcomeOf_branch hs decide_eq_true_iff, outcomeOf_branch hs decide_eq_true_iff⟩

/-- Settles O18: each condition is the printed formula over s and v. -/
theorem signedBranches : Obligations.SignedBranches := fun _ _ _ _ _ hs =>
  ⟨outcomeOf_branch hs decide_eq_true_iff, outcomeOf_branch hs decide_eq_true_iff,
    outcomeOf_branch hs decide_eq_true_iff, outcomeOf_branch hs decide_eq_true_iff⟩

/-- Settles O19: each condition is the printed formula over s and c. -/
theorem unsignedBranches : Obligations.UnsignedBranches := fun _ _ _ _ _ hs =>
  ⟨outcomeOf_branch hs decide_eq_true_iff, outcomeOf_branch hs decide_eq_true_iff,
    outcomeOf_branch hs decide_eq_true_iff, outcomeOf_branch hs decide_eq_true_iff⟩

/-- Settles O29: the operand phase writes at most its address register, and a taken branch writes pc besides. -/
theorem frameOfBranches : Obligations.FrameOfBranches := by
  intro i a src s t hi h
  obtain ⟨cond, hexec⟩ := exec_of_branchParts hi
  rw [hexec, outcomeOf_next_iff] at h
  obtain ⟨v, s', hs, rfl⟩ := (branch_ok_iff cond a src s t).1 h
  obtain ⟨hmem, hcc, hmap⟩ := hs.same
  have hword : ∀ x, s'.word x = s.word x := fun x => by rw [State.word, hmem]; rfl
  split
  · exact ⟨hcc, hmap, hword, fun r h0 hr => (State.reg_setReg_ne s' v h0).trans (hs.reg_eq hr)⟩
  · exact ⟨hcc, hmap, hword, fun r _ hr => hs.reg_eq hr⟩

/-! The condition codes of sub as a comparison (R87, R90, R91). -/

theorem overflow_eq_zero_iff (z : Int) : overflow z = 0 ↔ -9841 ≤ z ∧ z ≤ 9841 := by
  change (if -9841 ≤ z ∧ z ≤ 9841 then (0 : Trit) else 1) = 0 ↔ _
  split
  · next hz => exact iff_of_true rfl hz
  · next hz => exact iff_of_false (by decide) hz

/-- Without overflow sub stores the exact signed difference (R87, R90). -/
theorem sg_computeSub {d v : Word} (hv : (computeSub d v).cc.v = 0) : sg (computeSub d v).result = sg d - sg v := by
  obtain ⟨hlow, hhigh⟩ := (overflow_eq_zero_iff _).1 hv
  refine sg_eq_of_modEq ?_ hlow hhigh
  rw [u_computeSub]
  exact (Int.mod_modEq _ _).trans ((sg_modEq_u d).sub (sg_modEq_u v)).symm

/-- With overflow sub shows the inverse of the exact difference's sign (R91). -/
theorem computeSub_invertsSign {d v : Word} (hv : (computeSub d v).cc.v = 1) :
    InvertsSign (computeSub d v).cc.s (sg d - sg v) := by
  obtain ⟨hdmin, hdmax⟩ := sg_bounds d
  obtain ⟨hvmin, hvmax⟩ := sg_bounds v
  rw [computeSub_eq_computeSubb] at hv ⊢
  simpa using (computeSubb_invertsSign_iff hv).2 (by simp; omega)

/-- After sub the result shows as zero exactly when the operands are equal, overflow or not (R112). -/
theorem condBeq_computeSub (d v : Word) : condBeq (computeSub d v).cc = true ↔ d = v := by
  have hd := u_le_maxu d
  have hv := u_le_maxu v
  have hu := u_computeSub d v
  have hzero : condBeq (computeSub d v).cc = true ↔ sg (computeSub d v).result = 0 :=
    decide_eq_true_iff.trans (sign3_eq_zero_iff _)
  rw [hzero, sg_eq, Fin.ext_iff]
  change _ ↔ u d = u v
  split <;> omega

/-- sub shows the sign of the exact difference, or its inverse with v = 1 (R87, R90, R91). -/
theorem computeSub_sign_cases (d v : Word) :
    ((computeSub d v).cc.v = 0 ∧ ((computeSub d v).cc.s = 2 ↔ sg d < sg v) ∧ ((computeSub d v).cc.s = 1 ↔ sg v < sg d)) ∨
      ((computeSub d v).cc.v = 1 ∧ ((computeSub d v).cc.s = 1 ↔ sg d < sg v) ∧
        ((computeSub d v).cc.s = 2 ↔ sg v < sg d)) := by
  have hbit : (computeSub d v).cc.VIsBit := adder_vIsBit _ _
  rw [← sub_neg, ← sub_pos (a := sg d)]
  obtain hv | hv := hbit
  · rw [← sg_computeSub hv]
    exact .inl ⟨hv, sign3_eq_two_iff _, sign3_eq_one_iff _⟩
  · obtain ⟨-, hpos, hneg⟩ := computeSub_invertsSign hv
    exact .inr ⟨hv, hneg, hpos⟩

/-- After sub blts sees a difference that is truly negative: shown so without overflow, or shown positive with it (R114). -/
theorem condBlts_computeSub (d v : Word) : condBlts (computeSub d v).cc = true ↔ sg d < sg v := by
  rw [condBlts, decide_eq_true_iff]
  obtain ⟨hv, hneg, -⟩ | ⟨hv, hneg, -⟩ := computeSub_sign_cases d v <;> simp [hv, hneg]

/-- After sub bgts sees a difference that is truly positive: shown so without overflow, or shown negative with it (R117). -/
theorem condBgts_computeSub (d v : Word) : condBgts (computeSub d v).cc = true ↔ sg v < sg d := by
  rw [condBgts, decide_eq_true_iff]
  obtain ⟨hv, -, hpos⟩ | ⟨hv, -, hpos⟩ := computeSub_sign_cases d v <;> simp [hv, hpos]

/-- After sub no carry is a borrow (R118). -/
theorem condBltu_computeSub (d v : Word) : condBltu (computeSub d v).cc = true ↔ u d < u v := by
  rw [condBltu, decide_eq_true_iff, computeSub_c]
  split
  · next h => exact iff_of_false (by decide) (Nat.not_lt.2 h)
  · next h => exact iff_of_true rfl (Nat.not_le.1 h)

/-! The other conditions from these four (R113 to R121). -/

theorem condBne_iff (cc : CC) : condBne cc = true ↔ ¬ condBeq cc = true := by simp [condBne, condBeq]

theorem condBles_iff (cc : CC) : condBles cc = true ↔ condBlts cc = true ∨ condBeq cc = true := by
  simp [condBles, condBlts, condBeq, or_assoc]

theorem condBges_iff (cc : CC) : condBges cc = true ↔ condBgts cc = true ∨ condBeq cc = true := by
  simp [condBges, condBgts, condBeq, or_assoc]

theorem condBleu_iff (cc : CC) : condBleu cc = true ↔ condBltu cc = true ∨ condBeq cc = true := by
  simp [condBleu, condBltu, condBeq]

theorem condBgeu_iff (cc : CC) : condBgeu cc = true ↔ ¬ condBltu cc = true := by simp [condBgeu, condBltu]

theorem condBgtu_iff (cc : CC) : condBgtu cc = true ↔ ¬ condBleu cc = true := by simp [condBgtu, condBleu]

theorem condBne_computeSub (d v : Word) : condBne (computeSub d v).cc = true ↔ d ≠ v := by
  rw [condBne_iff, condBeq_computeSub]

theorem condBles_computeSub (d v : Word) : condBles (computeSub d v).cc = true ↔ sg d ≤ sg v := by
  rw [condBles_iff, condBlts_computeSub, condBeq_computeSub, ← sg_injective.eq_iff, le_iff_lt_or_eq]

theorem condBges_computeSub (d v : Word) : condBges (computeSub d v).cc = true ↔ sg v ≤ sg d := by
  rw [condBges_iff, condBgts_computeSub, condBeq_computeSub, ← sg_injective.eq_iff, le_iff_lt_or_eq, eq_comm]

theorem condBleu_computeSub (d v : Word) : condBleu (computeSub d v).cc = true ↔ u d ≤ u v := by
  rw [condBleu_iff, condBltu_computeSub, condBeq_computeSub, Fin.ext_iff]
  exact le_iff_lt_or_eq.symm

theorem condBgeu_computeSub (d v : Word) : condBgeu (computeSub d v).cc = true ↔ u v ≤ u d := by
  rw [condBgeu_iff, condBltu_computeSub, not_lt]

theorem condBgtu_computeSub (d v : Word) : condBgtu (computeSub d v).cc = true ↔ u v < u d := by
  rw [condBgtu_iff, condBleu_computeSub, not_le]

/-- A branch to the address in a register, `p` being what its condition says of the codes `cc` that it finds (R110). -/
theorem branch_to_reg {cond : CC → Bool} {cc : CC} {p : Prop} [Decidable p] {t : State} (r : RegNum) (hcc : t.cc = cc)
    (hp : cond cc = true ↔ p) :
    outcomeOf (branch cond .plain (.reg r) t) = .next (if p then t.setReg 0 (t.reg r) else t) :=
  outcomeOf_branch ⟨rfl, rfl⟩ (hcc ▸ hp)

/-- Settles O20: the branch finds the condition codes of the subtraction, which compare its operands. -/
theorem branchesAfterSubCompare : Obligations.BranchesAfterSubCompare := by
  intro a src dst s s' t v d r hs hd h
  have hcc : t.cc = (computeSub d v).cc := by
    obtain rfl := Host.Outcome.next.inj ((execSub_of hs hd).symm.trans h)
    exact destAfter_cc ..
  exact ⟨branch_to_reg r hcc (condBeq_computeSub d v), branch_to_reg r hcc (condBne_computeSub d v),
    branch_to_reg r hcc (condBlts_computeSub d v), branch_to_reg r hcc (condBles_computeSub d v),
    branch_to_reg r hcc (condBges_computeSub d v), branch_to_reg r hcc (condBgts_computeSub d v),
    branch_to_reg r hcc (condBltu_computeSub d v), branch_to_reg r hcc (condBleu_computeSub d v),
    branch_to_reg r hcc (condBgeu_computeSub d v), branch_to_reg r hcc (condBgtu_computeSub d v)⟩

end Sys2Proof.Machine

/-! Why an instruction or a step stops (60_exceptions.md R141 to R148). -/

namespace Sys2Proof.Machine

/-- A read depends on memory and the map alone (R35, R36). -/
theorem memRead_congr {s t : State} (hmem : t.mem = s.mem) (hmap : t.unpopulated = s.unpopulated) (x : Word) :
    memRead t x = memRead s x := by
  obtain ⟨regs, cc, mem, map⟩ := t
  obtain rfl : mem = s.mem := hmem
  obtain rfl : map = s.unpopulated := hmap
  rfl

/-- Any access to an address that `MEM_MAP` leaves out is a bus error, a read's included (R142). -/
theorem memRead_of_unpopulated {s : State} {x : Word} (h : s.populated x = false) : memRead s x = .error (.busError x) :=
  (memRead_error_iff s x _).2 (.inl ⟨h, rfl⟩)

/-- Phases 2 to 5 with a destination that is read fail only in that read: the write after it is to the same word (R77, R147). -/
theorem modifyDst_error_iff (compute : Word → Computed) (a : Auto) (o : Operand) (s : State) (f : Fault) :
    modifyDst compute a o s = .error f ↔ ∃ r, o = .mem r ∧ memRead s (operandAddr a r s) = .error f := by
  rw [← dstPrepare_error_iff]
  cases e : dstPrepare a o s with
  | error g => simp [modifyDst, e]
  | ok p =>
    obtain ⟨hd, -⟩ := (dstPrepare_ok_iff a o s p.1 p.2.1 p.2.2).1 e
    simp [modifyDst_of_destIs compute hd]

/-- A source that cannot be read stops the instruction, whatever was to follow (R77, R147). -/
theorem afterSource_of_error {rest : Word → State → Host.Outcome State Fault Refusal} {a : Auto} {r : RegNum} {s : State}
    {f : Fault} (h : memRead s (operandAddr a r s) = .error f) : afterSource rest a (.mem r) s = .fault f := by
  rw [afterSource, (srcVal_error_iff a (.mem r) s f).2 ⟨r, rfl, h⟩]

/-- If the rest of an instruction faults only as a read over its own state does, so does the whole: the source phase leaves memory
and the map (R73). -/
theorem memRead_of_afterSource_fault {rest : Word → State → Host.Outcome State Fault Refusal} {a : Auto} {src : Operand}
    {s : State} {f : Fault} (hrest : ∀ v s', rest v s' = .fault f → ∃ x, memRead s' x = .error f)
    (h : afterSource rest a src s = .fault f) : ∃ x, memRead s x = .error f := by
  cases e : srcVal a src s with
  | error g =>
    obtain ⟨r, -, hr⟩ := (srcVal_error_iff a src s g).1 e
    obtain rfl : g = f := by simpa [afterSource, e] using h
    exact ⟨_, hr⟩
  | ok p =>
    have hs := (srcVal_ok_iff a src s p.1 p.2).1 e
    rw [afterSource_of_sourceIs hs] at h
    obtain ⟨x, hx⟩ := hrest _ _ h
    obtain ⟨hmem, -, hmap⟩ := hs.same
    exact ⟨x, memRead_congr hmem hmap x ▸ hx⟩

theorem memRead_of_modifyDst_fault {compute : Word → Computed} {a : Auto} {o : Operand} {s : State} {f : Fault}
    (h : outcomeOf (modifyDst compute a o s) = .fault f) : ∃ x, memRead s x = .error f := by
  obtain ⟨r, -, hr⟩ := (modifyDst_error_iff compute a o s f).1 ((outcomeOf_fault_iff _ _).1 h)
  exact ⟨_, hr⟩

/-- The fault of an instruction is the one that a read at some address gives: a write that fails is to a word that cannot be read
either (R142, R147). -/
theorem memRead_of_exec_fault {i : Instr} {s : State} {f : Fault} (h : exec i s = .fault f) :
    ∃ x, memRead s x = .error f := by
  cases runsAs i with
  | move a src dst hi =>
    subst hi
    refine memRead_of_afterSource_fault (fun v s' hv => ?_) ((execMove_eq_afterSource a src dst s).symm.trans h)
    obtain ⟨r, -, hp, rfl⟩ := (dstCommit_located_error a dst s' _ _ f).1 ((outcomeOf_fault_iff _ _).1 hv)
    exact ⟨_, memRead_of_unpopulated hp⟩
  | sourced compute a src dst hexec hacc =>
    rw [hexec, formatG_eq_afterSource] at h
    exact memRead_of_afterSource_fault (fun _ _ => memRead_of_modifyDst_fault) h
  | modify compute a dst hexec hacc =>
    rw [hexec] at h
    exact memRead_of_modifyDst_fault h
  | branch cond a src hexec hacc =>
    rw [hexec, branch_eq_afterSource] at h
    refine memRead_of_afterSource_fault (fun _ _ hv => ?_) h
    cases hv

/-- An instruction completes or stops with a fault (R143). -/
theorem exec_eq_outcomeOf (i : Instr) (s : State) : ∃ r, exec i s = outcomeOf r := by
  cases runsAs i with
  | move a src dst hi =>
    subst hi
    cases e : srcVal a src s with
    | error f => exact ⟨.error f, by simp [exec, execMove, e, outcomeOf]⟩
    | ok p => exact ⟨overwriteDst (computeMove p.1) a dst p.2, by simp [exec, execMove, e]⟩
  | sourced compute a src dst hexec hacc => exact ⟨_, hexec s⟩
  | modify compute a dst hexec hacc => exact ⟨_, hexec s⟩
  | branch cond a src hexec hacc => exact ⟨_, hexec s⟩

theorem exec_ne_refused (i : Instr) (s : State) (r : Refusal) : exec i s ≠ .refused r := by
  obtain ⟨e, he⟩ := exec_eq_outcomeOf i s
  rw [he]
  cases e <;> exact nofun

/-- Settles O47: a fault would be that of a read, and every read succeeds. -/
theorem everyInstructionCompletes : Obligations.EveryInstructionCompletes := by
  intro i s hmap hword
  cases he : exec i s with
  | next t => exact ⟨t, rfl⟩
  | fault f =>
    obtain ⟨x, hx⟩ := memRead_of_exec_fault he
    obtain ⟨hp, -⟩ | ⟨-, hw, -⟩ := (memRead_error_iff s x f).1 hx
    · simp [State.populated, hmap] at hp
    · exact absurd hw (hword x)
  | refused r => exact absurd he (exec_ne_refused i s r)

/-! The step (R70). -/

/-- A fetch that cannot read its word stops the step (R70, R147). -/
theorem step_of_fetch_error {s : State} {f : Fault} (h : memRead s s.pc = .error f) : step s = .fault f := by
  simp only [step, fetch, h]

/-- A reserved word stops the step (R141). -/
theorem step_of_decode_error {s : State} {ir : Word} {r : Reserved} (hp : s.populated s.pc = true)
    (hw : s.word s.pc = some ir) (hd : decode ir = .error r) : step s = .fault (.reservedInstruction ir s.pc) := by
  simp only [step, (fetch_ok_iff s ir _).2 ⟨hp, hw, rfl⟩, hd]

/-- Everything a step can do: its fetch fails, or its word is reserved, or the instruction decides (R70). -/
theorem step_cases (s : State) :
    (∃ f, memRead s s.pc = .error f ∧ step s = .fault f) ∨
      ∃ ir, memRead s s.pc = .ok ir ∧
        ((∃ r, decode ir = .error r ∧ step s = .fault (.reservedInstruction ir s.pc)) ∨
          ∃ i, decode ir = .ok i ∧ step s = exec i (s.setReg 0 (inc s.pc))) := by
  cases hm : memRead s s.pc with
  | error f => exact .inl ⟨f, rfl, step_of_fetch_error hm⟩
  | ok ir =>
    obtain ⟨hp, hw⟩ := (memRead_ok_iff s s.pc ir).1 hm
    refine .inr ⟨ir, rfl, ?_⟩
    cases hd : decode ir with
    | error r => exact .inl ⟨r, rfl, step_of_decode_error hp hw hd⟩
    | ok i => exact .inr ⟨i, rfl, stepRunsDecodedInstruction s ir i hp hw hd⟩

/-- The fault of a read is a bus error or that of an unwritten word (R142, D22; log 4). -/
theorem fault_cases_of_memRead_error {s : State} {x : Word} {f : Fault} (h : memRead s x = .error f) :
    (∃ y, f = .busError y ∧ s.populated y = false) ∨
      ∃ y, f = .unwrittenMemory y ∧ s.populated y = true ∧ s.word y = none := by
  obtain ⟨hp, hf⟩ | ⟨hp, hw, hf⟩ := (memRead_error_iff s x f).1 h
  · exact .inl ⟨x, hf, hp⟩
  · exact .inr ⟨x, hf, hp, hw⟩

/-- Settles O43: a fault of the fetch or of the instruction is that of a read. -/
theorem faultsOfAStep : Obligations.FaultsOfAStep := by
  intro s f h
  obtain ⟨g, hg, hs⟩ | ⟨ir, hr, ⟨r, hd, hs⟩ | ⟨i, -, hs⟩⟩ := step_cases s
  · obtain rfl := Host.Outcome.fault.inj (hs.symm.trans h)
    exact .inr (fault_cases_of_memRead_error hg)
  · exact .inl ⟨ir, r, Host.Outcome.fault.inj (h.symm.trans hs), ((memRead_ok_iff s s.pc ir).1 hr).2, hd⟩
  · obtain ⟨x, hx⟩ := memRead_of_exec_fault (hs.symm.trans h)
    exact .inr (fault_cases_of_memRead_error hx)

/-- Settles O44: a bus error names an address that the map leaves out. -/
theorem noBusErrorWithFullMap : Obligations.NoBusErrorWithFullMap := by
  intro s x hmap h
  obtain ⟨ir, r, hf, -⟩ | ⟨y, -, hp⟩ | ⟨y, hf, -⟩ := faultsOfAStep s _ h
  · cases hf
  · simp [State.populated, hmap] at hp
  · cases hf

/-- Settles O48: neither the fetch, nor the decoder, nor an instruction refuses. -/
theorem stepIsNeverRefused : Obligations.StepIsNeverRefused := by
  intro s r
  obtain ⟨f, -, hs⟩ | ⟨ir, -, ⟨x, -, hs⟩ | ⟨i, -, hs⟩⟩ := step_cases s <;> rw [hs]
  · exact nofun
  · exact nofun
  · exact exec_ne_refused i _ r

/-! The first fault in phase order (R147). -/

/-- An instruction with a source or branch operand stops with the fault of that operand's read. -/
theorem exec_of_source_error {i : Instr} {a : Auto} {r : RegNum} {dst : Operand} {s : State} {f : Fault}
    (hi : i = .move a (.mem r) dst ∨ i = .add a (.mem r) dst ∨ i = .sub a (.mem r) dst ∨ branchParts i = some (a, .mem r))
    (hf : memRead s (operandAddr a r s) = .error f) : exec i s = .fault f := by
  obtain rfl | rfl | rfl | hb := hi
  · exact afterSource_of_error hf
  · exact (formatG_eq_afterSource computeAdd a _ dst s).trans (afterSource_of_error hf)
  · exact (formatG_eq_afterSource computeSub a _ dst s).trans (afterSource_of_error hf)
  · obtain ⟨cond, hexec⟩ := exec_of_branchParts hb
    exact (hexec s).trans ((branch_eq_afterSource cond a _ s).trans (afterSource_of_error hf))

/-- Phases 2 to 5 stop with the fault of the destination's read. -/
theorem outcomeOf_modifyDst_of_error {a : Auto} {r : RegNum} {s : State} {f : Fault}
    (hf : memRead s (operandAddr a r s) = .error f) (compute : Word → Computed) :
    outcomeOf (modifyDst compute a (.mem r) s) = .fault f :=
  (outcomeOf_fault_iff _ _).2 ((modifyDst_error_iff compute a (.mem r) s f).2 ⟨r, rfl, hf⟩)

/-- move with a readable source and a destination outside the map stops at the write (R76). -/
theorem execMove_of_dest_unpopulated {a : Auto} {src : Operand} {r : RegNum} {s s' : State} {v : Word}
    (hs : SourceIs a src s v s') (hp : s'.populated (operandAddr a r s') = false) :
    exec (.move a src (.mem r)) s = .fault (.busError (operandAddr a r s')) :=
  (afterSource_of_sourceIs hs).trans
    ((outcomeOf_fault_iff _ _).2 ((dstCommit_located_error a (.mem r) s' _ _ _).2 ⟨r, rfl, hp, rfl⟩))

/-- add and sub with a readable source stop with the fault of the destination's read, found after the source phase. -/
theorem exec_add_sub_of_dest_error {i : Instr} {a : Auto} {src : Operand} {r : RegNum} {s s' : State} {v : Word} {f : Fault}
    (hs : SourceIs a src s v s') (hf : memRead s' (operandAddr a r s') = .error f)
    (hi : i = .add a src (.mem r) ∨ i = .sub a src (.mem r)) : exec i s = .fault f := by
  obtain rfl | rfl := hi
  · exact (formatG_eq_afterSource computeAdd a src _ s).trans
      ((afterSource_of_sourceIs hs).trans (outcomeOf_modifyDst_of_error hf _))
  · exact (formatG_eq_afterSource computeSub a src _ s).trans
      ((afterSource_of_sourceIs hs).trans (outcomeOf_modifyDst_of_error hf _))

/-- addc, subb and the shifts stop with the fault of the destination's read. -/
theorem exec_carry_shift_of_dest_error {i : Instr} {a : Auto} {r : RegNum} {s : State} {f : Fault}
    (hf : memRead s (operandAddr a r s) = .error f)
    (hi : (∃ rs, i = .addc a rs (.mem r) ∨ i = .subb a rs (.mem r)) ∨
      a = .plain ∧ ∃ n, i = .sl n (.mem r) ∨ i = .sru n (.mem r) ∨ i = .srs n (.mem r)) : exec i s = .fault f := by
  obtain ⟨rs, rfl | rfl⟩ | ⟨rfl, n, rfl | rfl | rfl⟩ := hi <;> exact outcomeOf_modifyDst_of_error hf _

/-- Settles O45: each phase stops with its own fault once the phases before it have completed. -/
theorem faultPriority : Obligations.FaultPriority := by
  refine ⟨fun s hp => step_of_fetch_error (memRead_of_unpopulated hp), fun s ir r => step_of_decode_error,
    fun i a r dst s hp hi => exec_of_source_error hi (memRead_of_unpopulated hp), fun i a src r s s' v hs hp hi => ?_,
    fun i a r s hp => exec_carry_shift_of_dest_error (memRead_of_unpopulated hp)⟩
  obtain rfl | hi := hi
  · exact execMove_of_dest_unpopulated hs hp
  · exact exec_add_sub_of_dest_error hs (memRead_of_unpopulated hp) hi

/-- Settles O38: the value read is pc's own, so writing it back changes nothing. -/
theorem branchToPcIsNoOp : Obligations.BranchToPcIsNoOp := by
  intro i s hi
  obtain ⟨cond, hexec⟩ := exec_of_branchParts hi
  have hs : SourceIs .plain (.reg 0) s (s.reg 0) s := ⟨rfl, rfl⟩
  rw [hexec, outcomeOf_branch hs Iff.rfl, State.setReg_self, ite_self]

end Sys2Proof.Machine

/-! A read of a word that nothing has written (70_reset_and_hazards.md R161, D22). -/

namespace Sys2Proof.Machine

/-- A read of a populated word without a value stops the machine (D22; log 4). -/
theorem memRead_of_unwritten {s : State} {x : Word} (hp : s.populated x = true) (hw : s.word x = none) :
    memRead s x = .error (.unwrittenMemory x) :=
  (memRead_error_iff s x _).2 (.inr ⟨hp, hw, rfl⟩)

/-- Settles O46: the fetch and each operand's read stop with the fault of their read. -/
theorem unwrittenWordStops : Obligations.UnwrittenWordStops :=
  ⟨fun _ hp hw => step_of_fetch_error (memRead_of_unwritten hp hw),
    fun _ _ _ _ _ hp hw hi => exec_of_source_error hi (memRead_of_unwritten hp hw),
    fun _ _ _ _ _ _ _ hs hp hw hi => exec_add_sub_of_dest_error hs (memRead_of_unwritten hp hw) hi,
    fun _ _ _ _ hp hw hi => exec_carry_shift_of_dest_error (memRead_of_unwritten hp hw) hi⟩

/-! The reset state and the launch states (R160, R163). -/

/-- Settles O51: memory is empty at reset. -/
theorem resetMeetsInv : Obligations.ResetMeetsInv := ⟨State.reset_mem_wf, fun _ _ => rfl⟩

/-- Settles O54: the first step's fetch is a read of a word that reset has not written. -/
theorem resetState : Obligations.ResetState :=
  ⟨rfl, fun _ => rfl, fun _ => rfl, step_of_fetch_error (memRead_of_unwritten rfl rfl)⟩

/-- Memory holds the last word an image gives for an address (R163). -/
theorem Memory.lookup_load (image : List (Word × Word)) (x : Word) :
    (Memory.load image).lookup (u x) = (image.reverse.find? fun c => c.1 == x).map fun c => c.2 := by
  induction image using List.reverseRecOn with
  | nil => rfl
  | append_singleton l c ih =>
    have hload : Memory.load (l ++ [c]) = (Memory.load l).store (u c.1) c.2 := by simp [Memory.load]
    rw [hload, List.reverse_concat]
    obtain rfl | h := eq_or_ne c.1 x
    · simp
    · have hu : u x ≠ u c.1 := fun e => h (Fin.ext e.symm)
      simp [beq_false_of_ne h, Memory.lookup_store_ne _ _ hu, ih]

/-- A launch state is the loaded memory with the registers and cc supplied, and the launch address written to pc (R160). -/
theorem State.launch_eq_setReg (pc : Word) (image : List (Word × Word)) (regs : Vector Word 9) (cc : CC)
    (holes : List Word) : State.launch pc image regs cc holes =
      (⟨regs, cc, Memory.load (image.filter fun c => !holes.contains c.1), holes⟩ : State).setReg 0 pc := rfl

theorem State.launch_pc (pc : Word) (image : List (Word × Word)) (regs : Vector Word 9) (cc : CC) (holes : List Word) :
    (State.launch pc image regs cc holes).pc = pc := by
  rw [State.launch_eq_setReg, State.pc_setReg_zero]

theorem State.launch_reg (pc : Word) (image : List (Word × Word)) (regs : Vector Word 9) (cc : CC) (holes : List Word)
    {r : RegNum} (hr : r ≠ 0) : (State.launch pc image regs cc holes).reg r = regs[r] := by
  rw [State.launch_eq_setReg, State.reg_setReg_ne _ pc hr]
  rfl

/-- A word at an address that the map leaves out is not stored (log 6). -/
theorem State.launch_word_of_hole (pc : Word) (image : List (Word × Word)) (regs : Vector Word 9) (cc : CC)
    {holes : List Word} {x : Word} (hx : x ∈ holes) : (State.launch pc image regs cc holes).word x = none := by
  refine (Memory.lookup_load _ x).trans (Option.map_eq_none_iff.2 (List.find?_eq_none.2 fun c hc he => ?_))
  obtain rfl : c.1 = x := by simpa using he
  simp [hx] at hc

/-- At a populated address the words of the image that are left out do not matter (R163). -/
theorem State.launch_word_of_populated (pc : Word) (image : List (Word × Word)) (regs : Vector Word 9) (cc : CC)
    {holes : List Word} {x : Word} (hx : x ∉ holes) :
    (State.launch pc image regs cc holes).word x = (image.reverse.find? fun c => c.1 == x).map fun c => c.2 := by
  refine (Memory.lookup_load _ x).trans ?_
  rw [← List.filter_reverse, List.find?_filter]
  congr 2 with c
  by_cases h : c.1 = x <;> simp [h, hx]

/-- Settles O52: the loaded memory is in canonical form, and the load stores nothing at a hole. -/
theorem launchMeetsInv : Obligations.LaunchMeetsInv := by
  intro pc image regs cc holes
  refine ⟨Memory.wf_load _, fun a ha => State.launch_word_of_hole pc image regs cc ?_⟩
  simpa [State.populated, State.launch] using ha

/-- Settles O53: the registers are those supplied but for pc, and memory holds the image. -/
theorem launchState : Obligations.LaunchState := fun pc image regs cc holes =>
  ⟨State.launch_pc pc image regs cc holes, fun _ => State.launch_reg pc image regs cc holes, rfl,
    fun _ => State.launch_word_of_populated pc image regs cc⟩

/-! Runs and their end (R164, R167). -/

/-- At END_PC the run is over, whatever the number of steps left. -/
theorem runTo_of_pc_eq {e : Word} {s : State} (h : s.pc = e) (k : Nat) : runTo e k s = .ended s := by
  cases k <;> exact if_pos h

theorem runTo_zero_of_pc_ne {e : Word} {s : State} (h : s.pc ≠ e) : runTo e 0 s = .running s := if_neg h

theorem runTo_succ_of_next {e : Word} {s s' : State} (h : s.pc ≠ e) (hs : step s = .next s') (k : Nat) :
    runTo e (k + 1) s = runTo e k s' := by
  simp only [runTo, if_neg h, hs]

theorem eq_of_runTo_ended {e : Word} {k : Nat} {s t : State} (h : s.pc = e) (hr : runTo e k s = .ended t) : s = t :=
  RunResult.ended.inj ((runTo_of_pc_eq h k).symm.trans hr)

/-- A run that ends, but not yet at `s`, makes a step and ends from there. -/
theorem runTo_succ_ended {e : Word} {k : Nat} {s t : State} (h : s.pc ≠ e) (hr : runTo e (k + 1) s = .ended t) :
    ∃ s', step s = .next s' ∧ runTo e k s' = .ended t := by
  rw [runTo, if_neg h] at hr
  cases hs : step s with
  | next s' => exact ⟨s', rfl, by simpa only [hs] using hr⟩
  | fault f => simp [hs] at hr
  | refused r => simp [hs] at hr

/-- Induction along a run that ends in `t`: backwards from `t`, which stands at END_PC, over steps from states that do
not. -/
theorem Ends.induction {e : Word} {s t : State} {P : State → Prop} (h : Ends e s t) (hend : t.pc = e → P t)
    (hstep : ∀ s s', s.pc ≠ e → step s = .next s' → P s' → P s) : P s := by
  obtain ⟨k, hk⟩ := h
  induction k generalizing s with
  | zero =>
    by_cases he : s.pc = e
    · obtain rfl := eq_of_runTo_ended he hk
      exact hend he
    · rw [runTo_zero_of_pc_ne he] at hk
      cases hk
  | succ k ih =>
    by_cases he : s.pc = e
    · obtain rfl := eq_of_runTo_ended he hk
      exact hend he
    · obtain ⟨s', hs, hk'⟩ := runTo_succ_ended he hk
      exact hstep s s' he hs (ih hk')

theorem Ends.pc_eq {e : Word} {s t : State} (h : Ends e s t) : t.pc = e :=
  h.induction (P := fun _ => t.pc = e) id fun _ _ _ _ ih => ih

/-- After any number of steps the run from `s` has ended in `t` or is on its way. -/
def HeadsFor (e : Word) (t s : State) : Prop :=
  ∀ k, runTo e k s = .ended t ∨ ∃ s', runTo e k s = .running s'

theorem Ends.headsFor {e : Word} {s t : State} (h : Ends e s t) : HeadsFor e t s := by
  refine h.induction (P := HeadsFor e t) (fun ht k => .inl (runTo_of_pc_eq ht k)) fun s s' he hs ih k => ?_
  cases k with
  | zero => exact .inr ⟨s, runTo_zero_of_pc_ne he⟩
  | succ k => exact runTo_succ_of_next he hs k ▸ ih k

/-- Settles O55: a run is over only at END_PC, and there it is over. -/
theorem runEndsAtEndPc : Obligations.RunEndsAtEndPc := fun _ _ _ => ⟨Ends.pc_eq, runTo_of_pc_eq⟩

/-- Settles O56: after any number of steps the run has ended in `t` or is running, so it has not ended
elsewhere or faulted. -/
theorem oneEndState : Obligations.OneEndState := by
  refine fun e s t t' h => ⟨fun ⟨k, hk⟩ => ?_, fun k f hk => ?_⟩
  · obtain hr | ⟨s', hr⟩ := h.headsFor k
    · exact RunResult.ended.inj (hr.symm.trans hk)
    · cases hr.symm.trans hk
  · obtain hr | ⟨s', hr⟩ := h.headsFor k <;> cases hr.symm.trans hk

end Sys2Proof.Machine
